-- ==== Sys2Proof/Word.lean ====
section
/-! DEFINITION. The tape word and its plainest arithmetic (00_scope.md R8).

A word is a W-bit two's-complement signed integer, and the spec only ever compares, adds and
multiplies words as integers: no instruction shifts, masks or reads a bit of one (R8, 20_memory.md
R43). So a word is held as its value `sint(w)`, an `Int`, and W is a parameter: `InRange W` says
that an integer is the value of some W-bit word, and `wrap W` is the spec's `wrap_W`. -/

namespace Sys2Proof

/-- A tape word, an input value or an output value, held as `sint(w)` (00_scope.md R8). -/
abbrev Word := Int

/-- 2^(W−1), the bound of the W-bit signed range. -/
def half (w : Nat) : Int := ((2 ^ (w - 1) : Nat) : Int)

/-- 2^W, the modulus of `wrap`. -/
def modulus (w : Nat) : Int := ((2 ^ w : Nat) : Int)

/-- `v` is the value of a W-bit word: −2^(W−1) ≤ v ≤ 2^(W−1) − 1 (00_scope.md R8). -/
abbrev InRange (w : Nat) (v : Int) : Prop := -half w ≤ v ∧ v ≤ half w - 1

/-- `wrap_W(v)`: the W-bit word whose value equals `v` mod 2^W (00_scope.md R8). -/
def wrap (w : Nat) (v : Int) : Int :=
  if v % modulus w < half w then v % modulus w else v % modulus w - modulus w

end Sys2Proof
end

