-- ==== Sys2Proof/Config.lean ====
section
/-! DEFINITION. The implementation parameters (00_scope.md R6), each fixed for the whole run.

The spec leaves no value undefined (93_implementation_defined.md, 70_reset_and_hazards.md R184), so
this file declares no free value. N and L are not repeated here: they are the lengths of the tape
and of the input queue supplied at construction. -/

namespace Sys2Proof

/-- OVERFLOW_POLICY: what an ADD or MUL does when its exact result does not fit in W bits
(41_arithmetic.md R102). -/
inductive OverflowPolicy where
  /-- WRAP: the result is the low W bits of the exact result. -/
  | wrap
  /-- FAULT: the step raises ARITH_OVERFLOW. -/
  | fault
deriving DecidableEq, Repr

/-- The parameters of 00_scope.md R6 that no tape or queue determines. -/
structure Config where
  /-- `W`, the width in bits of a word. -/
  w : Nat
  /-- `AW`, the width in bits of the IP register. -/
  aw : Nat
  /-- `OVERFLOW_POLICY`. -/
  policy : OverflowPolicy
deriving DecidableEq, Repr

/-- The parameters the reset state is built with: W = 64 and WRAP are the spec's defaults (R6,
decisions D1 and D2). AW has no default in the spec; 64 is a DESIGN CHOICE (log 5): unsafe for a
statement that names the number 64, and no statement about every configuration depends on it. -/
def Config.default : Config := ⟨64, 64, .wrap⟩

/-- A word has at least one bit. DEDUCED from R8, whose range −2^(W−1) … 2^(W−1) − 1 has no meaning
at W = 0 (log 4): safe, since a construction with W = 0 is refused. -/
abbrev Config.Ok (c : Config) : Prop := 1 ≤ c.w

end Sys2Proof
end

