-- ==== Sys2Proof/Machine/State.lean ====
section
/-! DEFINITION. The state of the engine as plain data (10_state.md R33), the reasons a step can
stop, and the state after reset (70_reset_and_hazards.md R180). -/

namespace Sys2Proof.Machine

/-- The tape: N words indexed from 0, one entry a word, in index order (10_state.md R20). The spec
addresses whole words and knows no byte (20_memory.md R43: a model "holds each tape cell as one
W-bit word, not as bytes"), and every index below N holds a word. So the tape is the list of its
words: two equal tapes are equal lists, which is the canonical form, and no index is unlisted
(log 7). -/
abbrev Memory := List Word

/-- Every tape word is a W-bit word (10_state.md R20). -/
def Memory.wf (w : Nat) (m : Memory) : Bool := m.all (fun v => decide (InRange w v))

/-- The run state (10_state.md R28). The reserved encoding 0b11 is never produced and has no
constructor (93_implementation_defined.md I14). -/
inductive RunState where
  /-- RUNNING: the run loop is fetching and executing. -/
  | running
  /-- HALTED: HALT was dispatched. -/
  | halted
  /-- FAULTED: a fatal error ended the run. -/
  | faulted
deriving DecidableEq, Repr

/-- The fault causes (60_exceptions.md R150). The reserved codes 7 to 15 are never raised and have
no constructor (93_implementation_defined.md I14). -/
inductive FaultCause where
  /-- Code 0, the value in RUNNING and HALTED. -/
  | none
  /-- Code 1, DECODE_FAILURE (R151). -/
  | decodeFailure
  /-- Code 2, OOB_IP (R152). -/
  | oobIp
  /-- Code 3, OOB_FETCH (R152). -/
  | oobFetch
  /-- Code 4, OOB_ADDRESS (R152). -/
  | oobAddress
  /-- Code 5, INPUT_EXHAUSTED (R153). -/
  | inputExhausted
  /-- Code 6, ARITH_OVERFLOW (R154). -/
  | arithOverflow
deriving DecidableEq, Repr

/-- The fault record (10_state.md R29). `value` is held as an integer: a signed word for causes 1, 4
and 6, unsigned for 2, 3 and 5 (10_state.md R30). -/
structure FaultRecord where
  cause : FaultCause
  slot : Fin 4
  ip : Nat
  value : Int
deriving DecidableEq, Repr

/-- The record with every field 0: its value after construction (10_state.md R33). -/
def FaultRecord.zero : FaultRecord := ⟨.none, 0, 0, 0⟩

/-- The whole machine. `tape`, `ip`, `inCursor`, `outq`, `run` and `fault` are the architectural
state of 10_state.md R33; `cfg` and `inq` are the fixed configuration that R33 names beside it, held
here so that the step is a function of one value (log 3). N, L and the output cursor are the lengths
of `tape`, `inq` and `outq` and are not stored twice (`State.n`, `State.l`, `State.outCursor`). -/
structure State where
  /-- W, AW and OVERFLOW_POLICY (00_scope.md R6). -/
  cfg : Config
  /-- The tape (10_state.md R20). -/
  tape : Memory
  /-- The input queue, fixed at construction (10_state.md R25). -/
  inq : List Word
  /-- The instruction pointer, a non-negative integer that never wraps (10_state.md R22). -/
  ip : Nat
  /-- The input cursor (10_state.md R26). -/
  inCursor : Nat
  /-- The output sequence, oldest value first (10_state.md R27). -/
  outq : List Word
  /-- The run state, `state` in the spec (10_state.md R28). -/
  run : RunState
  /-- The fault record (10_state.md R29). -/
  fault : FaultRecord
deriving DecidableEq, Repr

/-- N, the tape length (00_scope.md R6). -/
def State.n (s : State) : Nat := s.tape.length

/-- L, the number of values in the input queue (00_scope.md R6). -/
def State.l (s : State) : Nat := s.inq.length

/-- The output cursor: the number of OUTs that have completed (10_state.md R27). -/
def State.outCursor (s : State) : Nat := s.outq.length

/-- Why a step could stop without a next state: nothing does. Every fault of the spec has its entry
described (60_exceptions.md R156), so a step that raises one answers a NEXT state, FAULTED (log 9);
and 93_implementation_defined.md says that no behaviour of this machine is stuck. Nobody raises a
value of this type, which is safe. -/
inductive Fault where
deriving DecidableEq, Repr

/-- Why the model gives no answer. -/
inductive Refusal where
  /-- Raised only by an arm of `exec` whose instruction has no meaning yet; no arm does. Safe: the
  model says nothing of such an instruction. -/
  | notModelled (mnemonic : String)
  /-- Raised by `construct`: the word width is 0, for which R8 gives no range. Safe: there is no
  machine to speak of. -/
  | noWordWidth
  /-- Raised by `construct`: a tape or input value does not fit in W bits
  (70_reset_and_hazards.md R181). Safe: the spec gives such a value no meaning. -/
  | valueOutOfRange
  /-- Raised by `construct`: N is above 2^AW − 1 (70_reset_and_hazards.md R181). Safe: the host's
  duty is not met. -/
  | tapeTooLong
deriving DecidableEq, Repr

/-- reset(T, Q) of 70_reset_and_hazards.md R180, under the parameters `c`. -/
def State.initial (c : Config) (t : Memory) (q : List Word) : State where
  cfg := c
  tape := t
  inq := q
  ip := 0
  inCursor := 0
  outq := []
  run := .running
  fault := FaultRecord.zero

/-- The machine right after reset, with nothing supplied by a host: reset(T, Q) at the spec's default
parameters, for the empty tape (legal, R180) and the empty queue. A program is part of T, so no
program stands here. DESIGN CHOICE (log 1), unsafe only in that a statement about this one state is
about one construction: statements about construction take every T and Q (`State.initial`). -/
def State.reset : State := State.initial Config.default [] []

end Sys2Proof.Machine
end

