-- ==== Sys2Proof/Machine/Ops.lean ====
section
/-! DEFINITION. The named operations over the state: the primitives of 00_scope.md R9, raising a
fault (60_exceptions.md R156), and the IP counter (40_cycle.md R88).

There is no return from a fault (60_exceptions.md R158) and no handler (R157), so no operation for
one stands here. -/

namespace Sys2Proof.Machine

/-- The word at tape index `i`, where 0 ≤ i < N; `none` at every other integer (20_memory.md R41). -/
def Memory.read (m : Memory) (i : Int) : Option Word :=
  if 0 ≤ i then m[i.toNat]? else none

/-- The tape with `v` at index `i`; every other word stays (20_memory.md R42). -/
def Memory.write (m : Memory) (i : Nat) (v : Word) : Memory := m.set i v

/-- The record that `raise Fault(cause, ip, value, slot)` leaves for a step that began at `s`
(00_scope.md R9): `fault.ip` is the IP at the start of the step (60_exceptions.md R150). -/
def faultAt (s : State) (cause : FaultCause) (slot : Fin 4) (value : Int) : FaultRecord :=
  ⟨cause, slot, s.ip, value⟩

/-- Fault entry, the one operation that every fault goes through (60_exceptions.md R156): the run
state becomes FAULTED and the record is set; tape, ip, in_cursor and outq do not change. -/
def takeFault (f : FaultRecord) (s : State) : State := { s with run := .faulted, fault := f }

/-- The end of a step that began at `s`: its completed state, or the entry of the first fault that a
check raised (00_scope.md R9, 60_exceptions.md R155). The fault is taken at `s`, so no effect of the
faulting instruction remains (R156). -/
def endStep (s : State) (r : Except FaultRecord State) : Host.Outcome State Fault Refusal :=
  match r with
  | .ok t => .next t
  | .error f => .next (takeFault f s)

/-- The bounds check of an operand address `v` (20_memory.md R41): the tape index it names, or
OOB_ADDRESS with the operand value and the operand's index as slot (60_exceptions.md R150). -/
def checkAddress (s : State) (slot : Fin 4) (v : Int) : Except FaultRecord Nat :=
  if 0 ≤ v ∧ v < (s.n : Int) then .ok v.toNat else .error (faultAt s .oobAddress slot v)

/-- `MemRead(v, 1)`, the checked read of one word at an operand address (00_scope.md R9). -/
def memRead (s : State) (slot : Fin 4) (v : Int) : Except FaultRecord Word :=
  match s.tape.read v with
  | some x => .ok x
  | none => .error (faultAt s .oobAddress slot v)

/-- `tape[i] <- v`, for an index whose check has passed (00_scope.md R9). -/
def memWrite (i : Nat) (v : Word) (s : State) : State := { s with tape := s.tape.write i v }

/-- The value that `InPop()` takes, or INPUT_EXHAUSTED with the input cursor as its value
(00_scope.md R9, 60_exceptions.md R153). -/
def nextInput (s : State) : Except FaultRecord Word :=
  match s.inq[s.inCursor]? with
  | some v => .ok v
  | none => .error (faultAt s .inputExhausted 0 (s.inCursor : Int))

/-- The cursor step of `InPop()` (00_scope.md R9). -/
def consumeInput (s : State) : State := { s with inCursor := s.inCursor + 1 }

/-- `OutPush(v)` (00_scope.md R9). -/
def outPush (v : Word) (s : State) : State := { s with outq := s.outq ++ [v] }

/-- `ip <- ip + len`, the advance after an instruction of `len` words (40_cycle.md R88). -/
def advance (len : Nat) (s : State) : State := { s with ip := s.ip + len }

/-- `state <- HALTED`; nothing else changes (43_halt.md R140). -/
def enterHalt (s : State) : State := { s with run := .halted }

end Sys2Proof.Machine
end

