-- ==== Sys2Proof/Machine/Alu.lean ====
section
/-! DEFINITION. The ALU and the overflow policy (41_arithmetic.md R101, R102). The engine has no
flags (10_state.md R24), so there is no flag computation: the overflow condition is an output of the
ALU that lives only inside a step. -/

namespace Sys2Proof.Machine

/-- The two operations of the ALU (41_arithmetic.md R101). -/
inductive AluOp where
  | add
  | mul
deriving DecidableEq, Repr

/-- The exact integer result `e` (41_arithmetic.md R101). -/
def aluExact (op : AluOp) (x y : Word) : Int :=
  match op with
  | .add => x + y
  | .mul => x * y

/-- `alu(op, x, y)`: the overflow condition and the wrapped result (41_arithmetic.md R101). -/
def alu (w : Nat) (op : AluOp) (x y : Word) : Bool × Word :=
  (decide (¬ InRange w (aluExact op x y)), wrap w (aluExact op x y))

/-- The result that the step writes, or ARITH_OVERFLOW with the wrapped result as its value: under
WRAP the wrapped result always, under FAULT only a result that fits (41_arithmetic.md R102). The
policy is the spec's own choice, D2 (log 6). -/
def aluResult (s : State) (op : AluOp) (x y : Word) : Except FaultRecord Word :=
  match s.cfg.policy, alu s.cfg.w op x y with
  | .fault, (true, r) => .error (faultAt s .arithOverflow 0 r)
  | .fault, (false, r) => .ok r
  | .wrap, (_, r) => .ok r

end Sys2Proof.Machine
end

