-- ==== Sys2Proof/Machine/Operands.lean ====
section
/-! DEFINITION. Operand forms. Every operand of every instruction is a positional tape address
(30_encoding.md R65); there is no register, no immediate and no other form. -/

namespace Sys2Proof.Machine

/-- The two data words and the checked destination index of a format F4 instruction. -/
structure F4Data where
  x : Word
  y : Word
  dest : Nat
deriving DecidableEq, Repr

/-- `fetch_F4_data` of 41_arithmetic.md R100: the checks and reads in the order a, b, dest. The order
is the spec's own choice, D7 (log 11). -/
def fetchF4Data (s : State) (a b dest : Word) : Except FaultRecord F4Data := do
  let x ← memRead s 1 a
  let y ← memRead s 2 b
  let d ← checkAddress s 3 dest
  return ⟨x, y, d⟩

end Sys2Proof.Machine
end

