-- ==== Sys2Proof/Machine/Arithmetic.lean ====
section
/-! DEFINITION. ADD and MUL (41_arithmetic.md R103 to R105). -/

namespace Sys2Proof.Machine

/-- The execute phase and the advance that ADD and MUL share (41_arithmetic.md R103, R104,
40_cycle.md R88): every read and check comes before the one write (20_memory.md R49). -/
def arithmetic (op : AluOp) (a b dest : Word) (s : State) : Except FaultRecord State := do
  let d ← fetchF4Data s a b dest
  let r ← aluResult s op d.x d.y
  return advance 4 (memWrite d.dest r s)

/-- ADD: `tape[dest] <- tape[a] + tape[b]`, then ip + 4 (41_arithmetic.md R103). -/
def execAdd (a b dest : Word) (s : State) : Host.Outcome State Fault Refusal :=
  endStep s (arithmetic .add a b dest s)

/-- MUL: `tape[dest] <- tape[a] × tape[b]`, then ip + 4 (41_arithmetic.md R104). MUL multiplies; the
no-op multiply of the original program is not offered (R105). -/
def execMul (a b dest : Word) (s : State) : Host.Outcome State Fault Refusal :=
  endStep s (arithmetic .mul a b dest s)

end Sys2Proof.Machine
end

