-- ==== Sys2Proof/Machine/Halt.lean ====
section
/-! DEFINITION. HALT (43_halt.md R140). -/

namespace Sys2Proof.Machine

/-- HALT: the run state becomes HALTED; ip, tape, cursors, outq and fault stay (43_halt.md R140). -/
def execHalt (s : State) : Host.Outcome State Fault Refusal := .next (enterHalt s)

end Sys2Proof.Machine
end

