-- ==== Sys2Proof/Machine/InputOutput.lean ====
section
/-! DEFINITION. IN and OUT (42_io.md R120, R121). -/

namespace Sys2Proof.Machine

/-- IN: `tape[dest] <- inq[in_cursor]`, in_cursor + 1, then ip + 2. The destination is checked before
the queue, and a fault leaves the tape and the cursor as they were (42_io.md R120). -/
def execInp (dest : Word) (s : State) : Host.Outcome State Fault Refusal :=
  endStep s do
    let d ← checkAddress s 1 dest
    let v ← nextInput s
    return advance 2 (memWrite d v (consumeInput s))

/-- OUT: `outq <- outq ++ [tape[src]]`, then ip + 2 (42_io.md R121). -/
def execOut (src : Word) (s : State) : Host.Outcome State Fault Refusal :=
  endStep s do
    let v ← memRead s 1 src
    return advance 2 (outPush v s)

end Sys2Proof.Machine
end

