-- ==== Sys2Proof/Syntax.lean ====
section
/-! DEFINITION. The instructions: one constructor per row of spec/opcode_table.json
(30_encoding.md R60, R67).

Every operand is the signed value of an operand word, used as a tape address (R65). The mode digits
of the opcode word are no part of an instruction: decode ignores them (R64). -/

namespace Sys2Proof

/-- The five instructions (00_scope.md R2). -/
inductive Instr where
  /-- ADD a, b, dest (opcode 1, format F4). -/
  | add (a b dest : Word)
  /-- MUL a, b, dest (opcode 2, format F4). -/
  | mul (a b dest : Word)
  /-- IN dest (opcode 3, format F2d). -/
  | inp (dest : Word)
  /-- OUT src (opcode 4, format F2s). -/
  | out (src : Word)
  /-- HALT (opcode 99, format F1). -/
  | halt
deriving DecidableEq, Repr

end Sys2Proof
end

