-- ==== Sys2Proof/Machine/Dispatch.lean ====
section
/-! DEFINITION. The dispatch multiplexer: exactly one instruction's semantics (40_cycle.md R87). -/

namespace Sys2Proof.Machine

/-- The meaning of a decoded instruction, its advance included (40_cycle.md R82 (3), (5), (6)). -/
def exec (i : Instr) (s : State) : Host.Outcome State Fault Refusal :=
  match i with
  | .add a b dest => Sys2Proof.Machine.execAdd a b dest s
  | .mul a b dest => Sys2Proof.Machine.execMul a b dest s
  | .inp dest => Sys2Proof.Machine.execInp dest s
  | .out src => Sys2Proof.Machine.execOut src s
  | .halt => Sys2Proof.Machine.execHalt s

end Sys2Proof.Machine
end

