-- ==== Sys2Proof/WellFormed.lean ====
section
/-! DEFINITION. Which instructions the tape can hold: every operand field is one whole W-bit word
(30_encoding.md R61). Nothing else is checked of an operand word: any value is accepted at decode,
and only its use can fault (R69). -/

namespace Sys2Proof

/-- Every operand of the instruction is a W-bit word (30_encoding.md R61). -/
def Instr.wf (w : Nat) : Instr → Bool
  | .add a b dest => decide (InRange w a) && decide (InRange w b) && decide (InRange w dest)
  | .mul a b dest => decide (InRange w a) && decide (InRange w b) && decide (InRange w dest)
  | .inp dest => decide (InRange w dest)
  | .out src => decide (InRange w src)
  | .halt => true

end Sys2Proof
end

