-- ==== Sys2Proof/Decode.lean ====
section
/-! DEFINITION. Decoding a sequence of tape words, and the encoder (30_encoding.md R62 to R70). -/

namespace Sys2Proof

/-- What the dispatch multiplexer selects: a valid decoded opcode (30_encoding.md R63). -/
inductive Opcode where
  | add
  | mul
  | inp
  | out
  | halt
deriving DecidableEq, Repr

/-- Why a sequence of words is no instruction: each is one check of 40_cycle.md R82. -/
inductive DecodeError where
  /-- There is no opcode word (R83). -/
  | noOpcode
  /-- The opcode word `w0` is INVALID (R84). -/
  | invalid (w0 : Word)
  /-- The operand word `k` is the first one missing (R86). -/
  | missing (k : Fin 4)
deriving DecidableEq, Repr

/-- `trem(a, 100)`: the truncated remainder, whose sign is that of `a` (00_scope.md R8). -/
def trem100 (a : Int) : Int := Int.tmod a 100

/-- `op(w) = trem(w, 100)` (30_encoding.md R62). Truncated remainder is the spec's own choice, D3
(log 10). -/
def opcodeOf (w : Word) : Int := trem100 w

/-- `decode(w)` of 30_encoding.md R63; `none` is INVALID. -/
def decodeOpcode (w : Word) : Option Opcode :=
  if opcodeOf w = 1 then some .add
  else if opcodeOf w = 2 then some .mul
  else if opcodeOf w = 3 then some .inp
  else if opcodeOf w = 4 then some .out
  else if opcodeOf w = 99 then some .halt
  else none

/-- The three operand words of format F4, or the first one that is missing (30_encoding.md R60,
40_cycle.md R86). -/
def decodeF4 (mk : Word → Word → Word → Instr) : List Word → Except DecodeError (Instr × List Word)
  | [] => .error (.missing 1)
  | [_] => .error (.missing 2)
  | [_, _] => .error (.missing 3)
  | a :: b :: dest :: rest => .ok (mk a b dest, rest)

/-- The operand word of formats F2d and F2s, or that it is missing. -/
def decodeF2 (mk : Word → Instr) : List Word → Except DecodeError (Instr × List Word)
  | [] => .error (.missing 1)
  | v :: rest => .ok (mk v, rest)

/-- The instruction at the head of a sequence of words, with the words after it. The checks stand
in the order of 40_cycle.md R82: the opcode word, its validity, then the operand words in
increasing order. -/
def decode : List Word → Except DecodeError (Instr × List Word)
  | [] => .error .noOpcode
  | w0 :: rest =>
    match decodeOpcode w0 with
    | none => .error (.invalid w0)
    | some .halt => .ok (.halt, rest)
    | some .add => decodeF4 .add rest
    | some .mul => decodeF4 .mul rest
    | some .inp => decodeF2 .inp rest
    | some .out => decodeF2 .out rest

/-- The length in words, a function of the opcode alone (30_encoding.md R66). -/
def opcodeLength : Opcode → Nat
  | .add => 4
  | .mul => 4
  | .inp => 2
  | .out => 2
  | .halt => 1

/-- The opcode an instruction decodes from. -/
def instrOpcode : Instr → Opcode
  | .add _ _ _ => .add
  | .mul _ _ _ => .mul
  | .inp _ => .inp
  | .out _ => .out
  | .halt => .halt

/-- The number of words an instruction occupies (30_encoding.md R60, R66). -/
def instrLength (i : Instr) : Nat := opcodeLength (instrOpcode i)

/-- The opcode values of 00_scope.md R2. -/
def opcodeValue : Opcode → Word
  | .add => 1
  | .mul => 2
  | .inp => 3
  | .out => 4
  | .halt => 99

/-- The words of an instruction: an assembler emits opcode words with mode digits 0
(30_encoding.md R70). -/
def encode : Instr → List Word
  | .add a b dest => [opcodeValue .add, a, b, dest]
  | .mul a b dest => [opcodeValue .mul, a, b, dest]
  | .inp dest => [opcodeValue .inp, dest]
  | .out src => [opcodeValue .out, src]
  | .halt => [opcodeValue .halt]

/-- The most words an instruction has (30_encoding.md R60). -/
def longestInstr : Nat := 4

/-- Word `k` of an instruction whose bits are `bits`, numbered as spec/opcode_table.json numbers
them: bit 0 is the least significant bit of the first word, a later word's bits count on from it,
and a word is W bits of two's complement (00_scope.md R8). -/
def wordOfBits (w bits k : Nat) : Word := wrap w ((bits / 2 ^ (w * k) : Nat) : Int)

/-- The words of an instruction given by its lowest `nbits` bits, every bit above them 0, up to the
longest instruction. -/
def tableWords (w nbits bits : Nat) : List Word :=
  (List.range longestInstr).map (wordOfBits w (bits % 2 ^ nbits))

/-- A sequence of words as one number, numbered as `wordOfBits` reads it. -/
def bitsOfWords (w : Nat) : List Word → Nat
  | [] => 0
  | v :: rest => (v % modulus w).toNat + 2 ^ w * bitsOfWords w rest

/-- The instruction of a decode, `none` where it failed. -/
def decodedInstr : Except DecodeError (Instr × List Word) → Option Instr
  | .ok p => some p.1
  | .error _ => none

/-- The instruction the decoder reads from a table word, at the default width W = 64. -/
def decodeTableWord (nbits w : Nat) : Option Instr :=
  decodedInstr (decode (tableWords Config.default.w nbits w))

end Sys2Proof
end

