-- ==== Sys2Proof/Machine/Fetch.lean ====
section
/-! DEFINITION. Fetching and decoding at IP (40_cycle.md R82 (1), (2), (4)), and placing an
instruction there. -/

namespace Sys2Proof.Machine

/-- The fault a failed fetch raises for a step that began at `s` (40_cycle.md R83, R84, R86;
60_exceptions.md R150). -/
def fetchFault (s : State) : DecodeError → FaultRecord
  | .noOpcode => faultAt s .oobIp 0 (s.ip : Int)
  | .invalid w0 => faultAt s .decodeFailure 0 w0
  | .missing k => faultAt s .oobFetch k ((s.ip + k.val : Nat) : Int)

/-- The instruction at IP, decoded from the current tape in every step (40_cycle.md R90,
20_memory.md R52). The tape from IP on is empty exactly where ip ≥ N, and its k-th word is missing
exactly where ip + k ≥ N, so the checks are those of R82, in R82's order. -/
def fetch (s : State) : Except FaultRecord Instr :=
  match decode (s.tape.drop s.ip) with
  | .ok (i, _) => .ok i
  | .error e => .error (fetchFault s e)

/-- The engine with `ws` as its tape words from IP on, the tape made long enough to hold them, and
running: what a host's construction would have supplied (log 2). -/
def placeWords (ws : List Word) (s : State) : State :=
  { s with
    tape := (s.tape ++ List.replicate (s.ip - s.n) 0).take s.ip ++ ws ++ s.tape.drop (s.ip + ws.length)
    run := .running
    fault := FaultRecord.zero }

end Sys2Proof.Machine
end

