-- ==== Sys2Proof/Machine/Step.lean ====
section
/-! DEFINITION. One step of the run loop (40_cycle.md R80 to R82). -/

namespace Sys2Proof.Machine

/-- One step. In RUNNING: fetch and decode, then the instruction's meaning, or the entry of the fault
the fetch raised (40_cycle.md R82). In HALTED and FAULTED the engine changes no state (R81, 43_halt.md
R141), so the step answers the state it was given (log 8). -/
def step (s : State) : Host.Outcome State Fault Refusal :=
  match s.run with
  | .running =>
    match fetch s with
    | .ok i => exec i s
    | .error f => .next (takeFault f s)
  | .halted => .next s
  | .faulted => .next s

/-- `s` with the instruction of the table word `w` as the words at IP, every bit above `nbits` zero,
and the engine running, so that the next step runs it (log 2). -/
def State.withFetchWord (s : State) (nbits w : Nat) : State :=
  placeWords (tableWords s.cfg.w nbits w) s

end Sys2Proof.Machine
end

