-- ==== Sys2Proof/Machine/Assembler.lean ====
section
/-! DEFINITION. The assembler notation of 30_encoding.md R70, as abstract syntax: which tape words a
listing stands for. It defines nothing of the engine (decision D17). -/

namespace Sys2Proof.Machine

/-- An address operand: a decimal tape address or a label. -/
inductive AsmOperand where
  | addr (v : Word)
  | label (name : String)
deriving DecidableEq, Repr

/-- One item of a listing. -/
inductive AsmItem where
  | add (a b dest : AsmOperand)
  | mul (a b dest : AsmOperand)
  | inp (dest : AsmOperand)
  | out (src : AsmOperand)
  | halt
  /-- `.word v`: one data word, which may be any word. -/
  | word (v : Word)
  /-- `label:`, which names the address of the next word. -/
  | label (name : String)
deriving DecidableEq, Repr

/-- An instruction as a line of a listing, its operands written as decimal addresses. -/
def instrItem : Instr → AsmItem
  | .add a b dest => .add (.addr a) (.addr b) (.addr dest)
  | .mul a b dest => .mul (.addr a) (.addr b) (.addr dest)
  | .inp dest => .inp (.addr dest)
  | .out src => .out (.addr src)
  | .halt => .halt

/-- How many words an item puts on the tape. -/
def asmLength : AsmItem → Nat
  | .add _ _ _ => opcodeLength .add
  | .mul _ _ _ => opcodeLength .mul
  | .inp _ => opcodeLength .inp
  | .out _ => opcodeLength .out
  | .halt => opcodeLength .halt
  | .word _ => 1
  | .label _ => 0

/-- The address of every label, for items placed from address `here` on. -/
def asmLabels (here : Nat) : List AsmItem → List (String × Nat)
  | [] => []
  | .label name :: rest => (name, here) :: asmLabels here rest
  | i :: rest => asmLabels (here + asmLength i) rest

/-- The value of an operand; a label that is not defined has none. -/
def asmOperand (labels : List (String × Nat)) : AsmOperand → Option Word
  | .addr v => some v
  | .label name => (labels.lookup name).map fun a => (a : Int)

/-- The words of one item. -/
def asmItem (labels : List (String × Nat)) : AsmItem → Option (List Word)
  | .add a b dest => do
    return encode (.add (← asmOperand labels a) (← asmOperand labels b) (← asmOperand labels dest))
  | .mul a b dest => do
    return encode (.mul (← asmOperand labels a) (← asmOperand labels b) (← asmOperand labels dest))
  | .inp dest => do return encode (.inp (← asmOperand labels dest))
  | .out src => do return encode (.out (← asmOperand labels src))
  | .halt => some (encode .halt)
  | .word v => some [v]
  | .label _ => some []

/-- The tape of a listing; `none` where an operand names a label that no line defines. -/
def assemble (items : List AsmItem) : Option (List Word) := do
  let words ← items.mapM (asmItem (asmLabels 0 items))
  return words.flatten

end Sys2Proof.Machine
end

