-- ==== Sys2Proof/Machine/Construction.lean ====
section
/-! DEFINITION. Construction, with the host's duties (70_reset_and_hazards.md R180, R181). -/

namespace Sys2Proof.Machine

/-- reset(T, Q) with the duties of 70_reset_and_hazards.md R181 checked: every tape and input value is
a W-bit word, and N ≤ 2^AW − 1. Where one is not met the reset is refused (decision D16; log 14). -/
def construct (c : Config) (t : Memory) (q : List Word) : Host.Outcome State Fault Refusal :=
  if ¬ c.Ok then .refused .noWordWidth
  else if ¬ (t.wf c.w ∧ Memory.wf c.w q) then .refused .valueOutOfRange
  else if ¬ t.length ≤ 2 ^ c.aw - 1 then .refused .tapeTooLong
  else .next (State.initial c t q)

end Sys2Proof.Machine
end

