-- ==== Sys2Proof/Machine/Control.lean ====
section
/-! DEFINITION. The decoder's control signals, the table of 40_cycle.md R85. They are the spec's own
partition of the block (decision D12): nothing outside a step can observe them, and the meanings do
not read them. That completed steps do what the table says is a statement. -/

namespace Sys2Proof.Machine

/-- One row of the table. A slot k names operand word k. -/
structure Control where
  valid : Bool
  ipIncrement : Nat
  operandWords : List Nat
  dataRead1 : Option Nat
  dataRead2 : Option Nat
  aluOp : Option AluOp
  tapeWrite : Option Nat
  inputPop : Bool
  outputPush : Bool
  halt : Bool
deriving DecidableEq, Repr

/-- The row of each decode result; `none` is INVALID (40_cycle.md R85). -/
def controlRow : Option Opcode → Control
  | some .add => ⟨true, 4, [1, 2, 3], some 1, some 2, some .add, some 3, false, false, false⟩
  | some .mul => ⟨true, 4, [1, 2, 3], some 1, some 2, some .mul, some 3, false, false, false⟩
  | some .inp => ⟨true, 2, [1], none, none, none, some 1, true, false, false⟩
  | some .out => ⟨true, 2, [1], some 1, none, none, none, false, true, false⟩
  | some .halt => ⟨true, 0, [], none, none, none, none, false, false, true⟩
  | none => ⟨false, 0, [], none, none, none, none, false, false, false⟩

/-- The row of an instruction's opcode. -/
def controlOf (i : Instr) : Control := controlRow (some (instrOpcode i))

/-- Operand word k of an instruction, k ≥ 1; word 0 is the opcode word (30_encoding.md R60). -/
def operandWord (i : Instr) (k : Nat) : Option Word := (encode i)[k]?

/-- The word a data read of the table gives: the tape word at the address in operand word k. -/
def dataRead (s : State) (i : Instr) (k : Option Nat) : Option Word := do
  let slot ← k
  let v ← operandWord i slot
  s.tape.read v

end Sys2Proof.Machine
end

