-- ==== Sys2Proof/Machine/Status.lean ====
section
/-! DEFINITION. What the host reads: the status interface (10_state.md R30), the output sequence
(42_io.md R123) and the read-back of a finished run (43_halt.md R143, 70_reset_and_hazards.md R182,
R183). Every entry is read-only, no instruction reads one, and none is stored: each is computed from
the state. Names, widths and encodings are the spec's own choice, D6 and D9 (log 12). -/

namespace Sys2Proof.Machine

/-- The encoding of the run state (10_state.md R28). -/
def runCode : RunState → BitVec 2
  | .running => 0#2
  | .halted => 1#2
  | .faulted => 2#2

/-- The code of a fault cause (60_exceptions.md R150). -/
def causeCode : FaultCause → BitVec 4
  | .none => 0#4
  | .decodeFailure => 1#4
  | .oobIp => 2#4
  | .oobFetch => 3#4
  | .oobAddress => 4#4
  | .inputExhausted => 5#4
  | .arithOverflow => 6#4

/-- The fault record as it reads: every field reads 0 in RUNNING and HALTED (10_state.md R29). -/
def faultReadout (s : State) : FaultRecord :=
  match s.run with
  | .faulted => s.fault
  | .running => FaultRecord.zero
  | .halted => FaultRecord.zero

/-- STATUS: bits[1:0] the run state, bits[5:2] the cause, bits[7:6] the slot (10_state.md R30). -/
def statusReg (s : State) : BitVec 8 :=
  BitVec.ofNat 2 (faultReadout s).slot.val ++ causeCode (faultReadout s).cause ++ runCode s.run

/-- IP, AW bits (10_state.md R30). -/
def ipReg (s : State) : BitVec s.cfg.aw := BitVec.ofNat s.cfg.aw s.ip

/-- IN_CURSOR, at least wide enough for L (10_state.md R30). -/
def inCursorReg (s : State) : Nat := s.inCursor

/-- OUT_COUNT, of implementation width (10_state.md R30). -/
def outCountReg (s : State) : Nat := s.outCursor

/-- FAULT_IP, AW bits (10_state.md R30). -/
def faultIpReg (s : State) : BitVec s.cfg.aw := BitVec.ofNat s.cfg.aw (faultReadout s).ip

/-- FAULT_VALUE, max(W, AW) bits: two's complement for the signed causes, unsigned for the others
(10_state.md R30), which are the same bits of the same integer. -/
def faultValueReg (s : State) : BitVec (max s.cfg.w s.cfg.aw) :=
  BitVec.ofInt (max s.cfg.w s.cfg.aw) (faultReadout s).value

/-- How FAULT_VALUE is read: a signed word for causes 1, 4 and 6 (10_state.md R30). -/
def causeSigned : FaultCause → Bool
  | .decodeFailure => true
  | .oobAddress => true
  | .arithOverflow => true
  | .none => false
  | .oobIp => false
  | .oobFetch => false
  | .inputExhausted => false

/-- The integer a host reads from FAULT_VALUE under the record's cause. -/
def faultValueRead (s : State) : Int :=
  if causeSigned (faultReadout s).cause then (faultValueReg s).toInt else ((faultValueReg s).toNat : Int)

/-- What a host may read at any moment, a prefix of the final output (42_io.md R123). -/
def readOutput (s : State) : List Word := s.outq

/-- What the host observes of a finished run (43_halt.md R143). -/
structure Readback where
  run : RunState
  tape : Memory
  outq : List Word
  fault : FaultRecord
  ip : Nat
  inCursor : Nat
deriving DecidableEq, Repr

/-- The read-back, allowed only after the run has ended (70_reset_and_hazards.md R183). -/
def readBack (s : State) : Option Readback :=
  if s.run = .running then none
  else some ⟨s.run, s.tape, s.outq, faultReadout s, s.ip, s.inCursor⟩

end Sys2Proof.Machine
end

