-- ==== Sys2Proof/Safety.lean ====
section
/-! DEFINITION. The terms that claims about the engine use: runs and their ends, valid addresses,
legal fault records, the invariant that every step keeps, and the premise that no result overflows. -/

namespace Sys2Proof.Machine

/-- `k` steps from `s` (40_cycle.md R80), by the host's own definition of a run. -/
def runFor (k : Nat) (s : State) : Host.Outcome State Fault Refusal := Host.Core.run Sys2Proof.core k s

/-- The run has ended: defined as `state ≠ RUNNING`, and as nothing else (43_halt.md R142). -/
abbrev Ended (s : State) : Prop := s.run ≠ .running

/-- The run from `s` is safe: it ends normally, in HALTED, and not by a fault (43_halt.md R141). -/
def EndsHalted (s : State) : Prop := ∃ k t, runFor k s = .next t ∧ t.run = .halted

/-- The run from `s` ends abnormally, in FAULTED (43_halt.md R141). -/
def EndsFaulted (s : State) : Prop := ∃ k t, runFor k s = .next t ∧ t.run = .faulted

/-- `v` is a valid tape address, 0 ≤ v < N (20_memory.md R41). -/
abbrev ValidAddress (s : State) (v : Int) : Prop := 0 ≤ v ∧ v < (s.n : Int)

/-- The instruction, executed at `s`, computes an exact result that does not fit in W bits
(41_arithmetic.md R101). -/
def OverflowsAt (s : State) : Instr → Prop
  | .add a b _ => ∃ x y, s.tape.read a = some x ∧ s.tape.read b = some y ∧ ¬ InRange s.cfg.w (x + y)
  | .mul a b _ => ∃ x y, s.tape.read a = some x ∧ s.tape.read b = some y ∧ ¬ InRange s.cfg.w (x * y)
  | .inp _ => False
  | .out _ => False
  | .halt => False

/-- "no ADD or MUL overflows", for the next step (41_arithmetic.md R102). -/
def NoOverflow (s : State) : Prop := ∀ i, fetch s = .ok i → ¬ OverflowsAt s i

/-- `r` is what ARITH_OVERFLOW reports at `s`: the instruction at IP is an ADD or MUL whose three
addresses are valid, whose exact result does not fit, and `r` is that result wrapped
(60_exceptions.md R150, R154). -/
def OverflowResult (s : State) (r : Int) : Prop :=
  ∃ a b dest x y, s.tape.read a = some x ∧ s.tape.read b = some y ∧ ValidAddress s dest ∧
    ((fetch s = .ok (.add a b dest) ∧ ¬ InRange s.cfg.w (x + y) ∧ r = wrap s.cfg.w (x + y)) ∨
     (fetch s = .ok (.mul a b dest) ∧ ¬ InRange s.cfg.w (x * y) ∧ r = wrap s.cfg.w (x * y)))

/-- The fault record of a FAULTED engine is one that the cause table allows (60_exceptions.md R150):
the slot and the value that the table gives the cause, at the IP of the faulting step. -/
def FaultRecordLegal (s : State) : Prop :=
  s.fault.ip = s.ip ∧
  match s.fault.cause with
  | .none => False
  | .decodeFailure => s.fault.slot = 0 ∧ s.tape.read (s.ip : Int) = some s.fault.value ∧
      decodeOpcode s.fault.value = none
  | .oobIp => s.fault.slot = 0 ∧ s.fault.value = (s.ip : Int) ∧ s.ip = s.n
  | .oobFetch => s.fault.slot ≠ 0 ∧ s.fault.value = ((s.ip + s.fault.slot.val : Nat) : Int) ∧
      s.ip + s.fault.slot.val = s.n
  | .oobAddress => s.fault.slot ≠ 0 ∧ ¬ ValidAddress s s.fault.value ∧
      s.tape.read ((s.ip + s.fault.slot.val : Nat) : Int) = some s.fault.value
  | .inputExhausted => s.fault.slot = 0 ∧ s.fault.value = (s.inCursor : Int) ∧ s.inCursor = s.l
  | .arithOverflow => s.cfg.policy = .fault ∧ s.fault.slot = 0 ∧ OverflowResult s s.fault.value

/-- The fault record reads 0 in RUNNING and HALTED (10_state.md R29) and is legal in FAULTED. -/
def FaultOk (s : State) : Prop :=
  match s.run with
  | .running => s.fault = FaultRecord.zero
  | .halted => s.fault = FaultRecord.zero
  | .faulted => FaultRecordLegal s

/-- What holds of every state a construction leads to: the ranges of 10_state.md R20 to R29, and the
bound on inputs and outputs that follows from 40_cycle.md R88 (decision D14). -/
structure Inv (s : State) : Prop where
  /-- W ≥ 1. -/
  configOk : s.cfg.Ok
  /-- Every tape word is a W-bit word (R20). -/
  tapeWords : s.tape.wf s.cfg.w = true
  /-- Every input value is a W-bit word (42_io.md R122). -/
  inputWords : Memory.wf s.cfg.w s.inq = true
  /-- Every output value is a W-bit word (R27). -/
  outputWords : Memory.wf s.cfg.w s.outq = true
  /-- N ≤ 2^AW − 1 (00_scope.md R6). -/
  tapeFits : s.n ≤ 2 ^ s.cfg.aw - 1
  /-- 0 ≤ ip ≤ N (R22). -/
  ipOnTape : s.ip ≤ s.n
  /-- in_cursor is in [0, L] (R26). -/
  cursorInQueue : s.inCursor ≤ s.l
  /-- Every completed IN and OUT moved IP by two words. -/
  ioBound : 2 * (s.inCursor + s.outCursor) ≤ s.ip
  /-- The fault record (R29, 60_exceptions.md R150). -/
  faultOk : FaultOk s

end Sys2Proof.Machine
end

