-- ==== Sys2Proof/Certificates/Slice0/Obligations.lean ====
section
/-! DEFINITION. The statements for the provers. Each docstring names the rule or section of spec/ it
formalises; "the spec's own choice" marks a point that the spec decides itself
(92_eei_decisions.md), and "log n" a choice of the model (notes/assumptions/n.md). -/

open Sys2Proof Sys2Proof.Machine

/-! ## Decoding and encoding -/

/-- 30_encoding.md R63: the five decoded opcodes, and INVALID for every other value. -/
def Obligations.OpcodeDecodesExactlyFive : Prop :=
  ∀ w : Word,
    (decodeOpcode w = some .add ↔ opcodeOf w = 1) ∧ (decodeOpcode w = some .mul ↔ opcodeOf w = 2) ∧
    (decodeOpcode w = some .inp ↔ opcodeOf w = 3) ∧ (decodeOpcode w = some .out ↔ opcodeOf w = 4) ∧
    (decodeOpcode w = some .halt ↔ opcodeOf w = 99) ∧
    (decodeOpcode w = none ↔
      opcodeOf w ≠ 1 ∧ opcodeOf w ≠ 2 ∧ opcodeOf w ≠ 3 ∧ opcodeOf w ≠ 4 ∧ opcodeOf w ≠ 99)

/-- 30_encoding.md section 2: the opcode is the remainder that truncated division by 100 leaves: the
lowest two decimal digits of a word ≥ 0, a value in −99..0 for a negative word, so that no word ≤ 0
decodes. The spec's own choice, D3. -/
def Obligations.OpcodeIsTruncatedRemainder : Prop :=
  ∀ w : Word,
    (∃ q : Int, w = 100 * q + opcodeOf w ∧ (0 ≤ w → 0 ≤ q) ∧ (w ≤ 0 → q ≤ 0)) ∧
    (0 ≤ w → 0 ≤ opcodeOf w ∧ opcodeOf w ≤ 99) ∧ (w < 0 → -99 ≤ opcodeOf w ∧ opcodeOf w ≤ 0) ∧
    (w ≤ 0 → decodeOpcode w = none)

/-- 30_encoding.md R64: the decimal digits above the lowest two never change the instruction, its
width or its operands, and never fault; with the rule's own examples. -/
def Obligations.ModeDigitsAreIgnored : Prop :=
  (∀ (q r : Int) (rest : List Word), 0 ≤ q → 0 ≤ r → r < 100 →
    decodeOpcode (100 * q + r) = decodeOpcode r ∧
    (decodeOpcode r ≠ none → decode ((100 * q + r) :: rest) = decode (r :: rest))) ∧
  decodeOpcode 101 = some .add ∧ decodeOpcode 1001 = some .add ∧ decodeOpcode 11101 = some .add ∧
  decodeOpcode 1002 = some .mul ∧ decodeOpcode 199 = some .halt

/-- 30_encoding.md R66: the length is a function of the opcode (4, 4, 2, 2, 1), a decoded instruction
takes exactly that many words, and an INVALID opcode word decodes to nothing whatever follows it. -/
def Obligations.LengthFollowsFromTheOpcode : Prop :=
  (opcodeLength .add = 4 ∧ opcodeLength .mul = 4 ∧ opcodeLength .inp = 2 ∧ opcodeLength .out = 2 ∧
    opcodeLength .halt = 1) ∧
  ∀ (w0 : Word) (rest : List Word),
    (∀ i tail, decode (w0 :: rest) = .ok (i, tail) →
      ∃ op, decodeOpcode w0 = some op ∧ (w0 :: rest).length = opcodeLength op + tail.length ∧
        tail = (w0 :: rest).drop (opcodeLength op)) ∧
    (decodeOpcode w0 = none → decode (w0 :: rest) = .error (.invalid w0))

/-- 30_encoding.md sections 1 and 7: for every width at which the opcode 99 is a word and every
instruction whose operands are words of that width, decoding the bits of the encoded instruction gives
it back; at W = 64 through the table word decoder. The numbering of an instruction's words as one
number (word k in bits W·k and up) and W = 64 there are the model's choice (log 2): the spec's
instructions are whole words and not bit fields. -/
def Obligations.EncodedBitsDecodeBack : Prop :=
  (∀ (w : Nat) (i : Instr), 8 ≤ w → i.wf w = true →
    ∃ tail, decode (tableWords w (w * instrLength i) (bitsOfWords w (encode i))) = .ok (i, tail)) ∧
  ∀ i : Instr, i.wf 64 = true →
    decodeTableWord (64 * instrLength i) (bitsOfWords 64 (encode i)) = some i

/-- 30_encoding.md sections 2 and 5: whatever decodes to an instruction is that instruction's own
encoding, but for mode digits ≥ 0 in the opcode word. That the digits are ≥ 0, so that no negative word
decodes, is the spec's own choice, D3 (log 10). -/
def Obligations.DecodedWordsAreTheEncoding : Prop :=
  ∀ (w0 : Word) (rest : List Word) (i : Instr) (tail : List Word),
    decode (w0 :: rest) = .ok (i, tail) →
      ∃ q : Int, 0 ≤ q ∧ w0 = 100 * q + opcodeValue (instrOpcode i) ∧ rest = (encode i).tail ++ tail

/-- 95_test_vectors.md section 2.1 and 30_encoding.md section 7: some opcode words and instructions of
the spec, decoded. The negative word rests on the spec's own choice, D3. -/
def Obligations.SpecWordsDecode : Prop :=
  decode [1, 15, 16, 17] = .ok (.add 15 16 17, []) ∧ decode [1002, 4, 3, 4, 33] = .ok (.mul 4 3 4, [33]) ∧
  decode [11103, -2] = .ok (.inp (-2), []) ∧ decode [104, 3, 99] = .ok (.out 3, [99]) ∧
  decode [199] = .ok (.halt, []) ∧ decode [9223372036854775807] = .error (.invalid 9223372036854775807) ∧
  decode [-99, 0, 0, 0] = .error (.invalid (-99)) ∧ decode [1, 0, 0] = .error (.missing 3)

/-- 30_encoding.md section 7: a listing of instructions with decimal addresses assembles to their
encodings one after another; and a label after them, used as the operand of an OUT before them, stands
for the address of the word that follows it. The spec's own choice, D17. -/
def Obligations.ListingsAssembleToEncodings : Prop :=
  (∀ is : List Instr, assemble (is.map instrItem) = some (is.map encode).flatten) ∧
  ∀ (is : List Instr) (name : String) (v : Word),
    assemble (.out (.label name) :: (is.map instrItem ++ [.label name, .word v])) =
      some (encode (.out ((2 + (is.map instrLength).sum : Nat) : Int)) ++ (is.map encode).flatten ++ [v])

/-! ## The step -/

/-- 40_cycle.md R90: a step decodes the words that stand at IP now, and runs that instruction. The
advance of IP is part of `exec`; the step adds nothing around it. -/
def Obligations.StepRunsTheDecodedInstruction : Prop :=
  ∀ (s : State) (i : Instr) (tail : List Word),
    s.run = .running → decode (s.tape.drop s.ip) = .ok (i, tail) → step s = exec i s

/-- 40_cycle.md section 2 and 60_exceptions.md section 1: with IP at or past N the step raises OOB_IP
with value ip, and only ip = N can be reached. The record is the spec's own choice, D6. -/
def Obligations.IpPastTheTapeFaults : Prop :=
  ∀ s : State, s.n ≤ s.ip →
    (s.run = .running →
      step s = .next { s with run := .faulted, fault := ⟨.oobIp, 0, s.ip, (s.ip : Int)⟩ }) ∧
    (Inv s → s.ip = s.n)

/-- 40_cycle.md R84 and 60_exceptions.md R151: an opcode word outside the valid set raises
DECODE_FAILURE at once, whatever the operand words are: nothing is read, written, consumed or output,
and IP stays. -/
def Obligations.InvalidOpcodeFaultsAtOnce : Prop :=
  ∀ (s : State) (w0 : Word), s.run = .running → s.tape.read (s.ip : Int) = some w0 →
    opcodeOf w0 ∉ [1, 2, 3, 4, 99] →
    ∃ t, step s = .next t ∧ t.run = .faulted ∧ t.fault.cause = .decodeFailure ∧ t.tape = s.tape ∧
      t.inCursor = s.inCursor ∧ t.outq = s.outq ∧ t.ip = s.ip

/-- 40_cycle.md section 4: the first operand word past the tape raises OOB_FETCH with its index and
its number, before any data address is looked at. The spec's own choice, D6 and D7. -/
def Obligations.MissingOperandWordFaults : Prop :=
  ∀ (s : State) (w0 : Word) (op : Opcode) (k : Fin 4),
    s.run = .running → s.tape.read (s.ip : Int) = some w0 → decodeOpcode w0 = some op →
    1 ≤ k.val → k.val < opcodeLength op → s.ip + k.val = s.n →
    step s = .next { s with run := .faulted, fault := ⟨.oobFetch, k, s.ip, ((s.ip + k.val : Nat) : Int)⟩ }

/-- 40_cycle.md R81: once HALTED or FAULTED, no run changes any state. (That the model answers the
same state, where the spec has no step, is log 8; this statement does not depend on it.) -/
def Obligations.EndedEngineChangesNothing : Prop :=
  ∀ (s t : State) (k : Nat), Ended s → runFor k s = .next t → t = s

/-- 40_cycle.md R80: a step in RUNNING always ends, in one of three ways: an instruction completes and
the state stays RUNNING, HALT completes and it is HALTED, or a fault makes it FAULTED. -/
def Obligations.EveryStepEndsInOneOfThreeWays : Prop :=
  ∀ s : State, s.run = .running →
    ∃ t, step s = .next t ∧
      ((t.run = .running ∧ ∃ i, i ≠ .halt ∧ fetch s = .ok i ∧ exec i s = .next t) ∨
       (t.run = .halted ∧ fetch s = .ok .halt ∧ exec .halt s = .next t) ∨ t.run = .faulted)

/-! ## ADD and MUL -/

/-- 41_arithmetic.md section 2: ADD with valid addresses whose exact sum fits writes that sum at dest
and advances IP by 4; nothing else changes. No policy and no D2 enters. -/
def Obligations.AddStoresTheSum : Prop :=
  ∀ (s : State) (a b dest x y : Word), s.cfg.Ok → s.tape.read a = some x → s.tape.read b = some y →
    ValidAddress s dest → InRange s.cfg.w (x + y) →
    exec (.add a b dest) s = .next { s with tape := s.tape.write dest.toNat (x + y), ip := s.ip + 4 }

/-- 41_arithmetic.md section 3: MUL with valid addresses whose exact product fits writes that product
at dest and advances IP by 4; nothing else changes. No policy and no D2 enters. -/
def Obligations.MulStoresTheProduct : Prop :=
  ∀ (s : State) (a b dest x y : Word), s.cfg.Ok → s.tape.read a = some x → s.tape.read b = some y →
    ValidAddress s dest → InRange s.cfg.w (x * y) →
    exec (.mul a b dest) s = .next { s with tape := s.tape.write dest.toNat (x * y), ip := s.ip + 4 }

/-- 41_arithmetic.md section 1: the overflow output says whether the exact result fits, and the result
is the one W-bit word congruent to it modulo 2^W. The spec's own choice, D1 and D2. -/
def Obligations.AluWrapsTheExactResult : Prop :=
  ∀ (w : Nat) (op : AluOp) (x y : Word), 1 ≤ w →
    ((alu w op x y).1 = true ↔ ¬ InRange w (aluExact op x y)) ∧
    InRange w (alu w op x y).2 ∧ modulus w ∣ (alu w op x y).2 - aluExact op x y ∧
    (∀ r : Int, InRange w r → modulus w ∣ r - aluExact op x y → r = (alu w op x y).2) ∧
    (InRange w (aluExact op x y) → (alu w op x y).2 = aluExact op x y) ∧
    aluExact .add x y = x + y ∧ aluExact .mul x y = x * y

/-- 41_arithmetic.md section 1: under WRAP, ADD and MUL with valid addresses always complete, with the
wrapped result. The spec's own choice, D2. -/
def Obligations.WrapPolicyStoresTheWrappedResult : Prop :=
  ∀ (s : State) (a b dest x y : Word), s.cfg.policy = .wrap → s.tape.read a = some x →
    s.tape.read b = some y → ValidAddress s dest →
    exec (.add a b dest) s =
      .next { s with tape := s.tape.write dest.toNat (wrap s.cfg.w (x + y)), ip := s.ip + 4 } ∧
    exec (.mul a b dest) s =
      .next { s with tape := s.tape.write dest.toNat (wrap s.cfg.w (x * y)), ip := s.ip + 4 }

/-- 41_arithmetic.md section 1: under FAULT, a result that does not fit raises ARITH_OVERFLOW with the
wrapped result as its value; the tape is not written and IP stays. The spec's own choice, D2 and D6. -/
def Obligations.FaultPolicyRaisesOverflow : Prop :=
  ∀ (s : State) (a b dest x y : Word), s.cfg.policy = .fault → s.tape.read a = some x →
    s.tape.read b = some y → ValidAddress s dest →
    (¬ InRange s.cfg.w (x + y) → exec (.add a b dest) s =
      .next { s with run := .faulted, fault := ⟨.arithOverflow, 0, s.ip, wrap s.cfg.w (x + y)⟩ }) ∧
    (¬ InRange s.cfg.w (x * y) → exec (.mul a b dest) s =
      .next { s with run := .faulted, fault := ⟨.arithOverflow, 0, s.ip, wrap s.cfg.w (x * y)⟩ })

/-- 41_arithmetic.md section 1: "When `overflow = 0`, the two policies agree": a step in which no ADD or
MUL overflows is the same under every policy. The spec's own choice, D2. -/
def Obligations.PoliciesAgreeWithoutOverflow : Prop :=
  ∀ (s t : State) (p : OverflowPolicy), NoOverflow s → step s = .next t →
    step { s with cfg := { s.cfg with policy := p } } = .next { t with cfg := { t.cfg with policy := p } }

/-- 60_exceptions.md section 2: under WRAP no step raises ARITH_OVERFLOW. The spec's own choice, D2. -/
def Obligations.WrapPolicyNeverRaisesOverflow : Prop :=
  ∀ s t : State, s.cfg.policy = .wrap → s.run = .running → step s = .next t →
    t.run = .faulted → t.fault.cause ≠ .arithOverflow

/-- 41_arithmetic.md section 1: ADD and MUL check a, then b, then dest, and the first one outside the
tape raises OOB_ADDRESS with its value and its number; nothing else changes. The spec's own choice, D6
and D7. -/
def Obligations.ArithmeticAddressFaultsInOrder : Prop :=
  ∀ (s : State) (a b dest : Word) (i : Instr), i = .add a b dest ∨ i = .mul a b dest →
    (¬ ValidAddress s a →
      exec i s = .next { s with run := .faulted, fault := ⟨.oobAddress, 1, s.ip, a⟩ }) ∧
    (ValidAddress s a → ¬ ValidAddress s b →
      exec i s = .next { s with run := .faulted, fault := ⟨.oobAddress, 2, s.ip, b⟩ }) ∧
    (ValidAddress s a → ValidAddress s b → ¬ ValidAddress s dest →
      exec i s = .next { s with run := .faulted, fault := ⟨.oobAddress, 3, s.ip, dest⟩ })

/-- 41_arithmetic.md sections 2 and 3: the frame of ADD and MUL. Every tape address but dest reads as
before; the configuration, the input queue, its cursor and the outputs stay. Either the instruction
completed, with the run state and the fault record as they were, or it entered a fault, with the
whole tape and IP as they were, which is the spec's own choice, D8 (log 11). -/
def Obligations.ArithmeticFrame : Prop :=
  ∀ (s t : State) (a b dest : Word) (i : Instr), i = .add a b dest ∨ i = .mul a b dest →
    exec i s = .next t →
    t.cfg = s.cfg ∧ t.inq = s.inq ∧ t.inCursor = s.inCursor ∧ t.outq = s.outq ∧ t.n = s.n ∧
    (∀ v : Int, v ≠ dest → t.tape.read v = s.tape.read v) ∧
    ((t.run = s.run ∧ t.fault = s.fault ∧ t.ip = s.ip + 4) ∨
     (t.run = .faulted ∧ t.tape = s.tape ∧ t.ip = s.ip))

/-! ## IN and OUT -/

/-- 42_io.md section 1: IN with a valid dest and a value left stores the next input value unchanged,
advances the cursor by one and IP by 2; nothing else changes. -/
def Obligations.InStoresTheNextInput : Prop :=
  ∀ (s : State) (dest v : Word), ValidAddress s dest → s.inq[s.inCursor]? = some v →
    exec (.inp dest) s =
      .next { s with tape := s.tape.write dest.toNat v, inCursor := s.inCursor + 1, ip := s.ip + 2 }

/-- 60_exceptions.md section 1 and 42_io.md section 1: IN at the end of the queue, its dest checked first,
raises INPUT_EXHAUSTED and does not wait. No tape word changes, and neither does the cursor, an output
or IP, which is the spec's own choice, D8 (log 11); the place of the check is D7 (log 11). -/
def Obligations.InFaultsWhenInputIsExhausted : Prop :=
  ∀ (s : State) (dest : Word), ValidAddress s dest → s.inCursor = s.l →
    ∃ t, exec (.inp dest) s = .next t ∧ t.run = .faulted ∧ t.fault.cause = .inputExhausted ∧
      t.tape = s.tape ∧ t.inCursor = s.inCursor ∧ t.outq = s.outq ∧ t.ip = s.ip

/-- 42_io.md section 1: IN with dest outside the tape raises OOB_ADDRESS, even with no input left; no
input is consumed. The spec's own choice, D6 and D7. -/
def Obligations.InWithBadDestinationFaults : Prop :=
  ∀ (s : State) (dest : Word), ¬ ValidAddress s dest →
    exec (.inp dest) s = .next { s with run := .faulted, fault := ⟨.oobAddress, 1, s.ip, dest⟩ }

/-- 42_io.md section 1: the frame of IN. Every tape address but dest reads as before; the
configuration, the queue and the outputs stay; the instruction completed, or entered a fault that
left the tape, the cursor and IP as they were, which is the spec's own choice, D8 (log 11). -/
def Obligations.InFrame : Prop :=
  ∀ (s t : State) (dest : Word), exec (.inp dest) s = .next t →
    t.cfg = s.cfg ∧ t.inq = s.inq ∧ t.outq = s.outq ∧ t.n = s.n ∧
    (∀ v : Int, v ≠ dest → t.tape.read v = s.tape.read v) ∧
    ((t.run = s.run ∧ t.fault = s.fault ∧ t.inCursor = s.inCursor + 1 ∧ t.ip = s.ip + 2) ∨
     (t.run = .faulted ∧ t.tape = s.tape ∧ t.inCursor = s.inCursor ∧ t.ip = s.ip))

/-- 42_io.md section 2: OUT with a valid src appends the word there to the output sequence and
advances IP by 2; nothing else changes. -/
def Obligations.OutAppendsTheWord : Prop :=
  ∀ (s : State) (src v : Word), s.tape.read src = some v →
    exec (.out src) s = .next { s with outq := s.outq ++ [v], ip := s.ip + 2 }

/-- 42_io.md section 2: OUT with src outside the tape raises OOB_ADDRESS and appends nothing. The
spec's own choice, D6. -/
def Obligations.OutWithBadSourceFaults : Prop :=
  ∀ (s : State) (src : Word), ¬ ValidAddress s src →
    exec (.out src) s = .next { s with run := .faulted, fault := ⟨.oobAddress, 1, s.ip, src⟩ }

/-- 42_io.md section 2: the frame of OUT. It stores nothing: every tape address reads as before; the
configuration, the queue and its cursor stay; the instruction completed, or entered a fault that left
the outputs and IP as they were, which is the spec's own choice, D8 (log 11). -/
def Obligations.OutFrame : Prop :=
  ∀ (s t : State) (src : Word), exec (.out src) s = .next t →
    t.cfg = s.cfg ∧ t.inq = s.inq ∧ t.inCursor = s.inCursor ∧ t.n = s.n ∧
    (∀ v : Int, t.tape.read v = s.tape.read v) ∧
    ((t.run = s.run ∧ t.fault = s.fault ∧ t.outCursor = s.outCursor + 1 ∧ t.ip = s.ip + 2) ∨
     (t.run = .faulted ∧ t.outq = s.outq ∧ t.ip = s.ip))

/-! ## HALT and the halt state machine -/

/-- 43_halt.md R140: HALT makes the run state HALTED and changes nothing else, IP included; the step
at an opcode word with opcode 99 does so whatever follows it, the end of the tape included. -/
def Obligations.HaltEndsTheRunNormally : Prop :=
  (∀ s : State, exec .halt s = .next { s with run := .halted }) ∧
  ∀ (s : State) (w0 : Word), s.run = .running → s.tape.read (s.ip : Int) = some w0 → opcodeOf w0 = 99 →
    step s = .next { s with run := .halted }

/-- 43_halt.md section 2: the transitions of the run state. HALTED and FAULTED stay; RUNNING becomes
HALTED exactly when HALT is dispatched; nothing leads to RUNNING but RUNNING; and the fault record is
set only on entering FAULTED. The spec's own choice, D9. -/
def Obligations.RunStateTransitions : Prop :=
  ∀ s t : State, step s = .next t →
    (s.run = .halted → t.run = .halted) ∧ (s.run = .faulted → t.run = .faulted) ∧
    (s.run = .running → (t.run = .halted ↔ fetch s = .ok .halt)) ∧
    (t.run = .running → s.run = .running) ∧ (t.fault ≠ s.fault → s.run = .running ∧ t.run = .faulted)

/-! ## Faults -/

/-- 60_exceptions.md section 3: a fault is precise: tape, ip, in_cursor, outq and the configuration are
those of the start of the faulting step, whose IP the record holds. The spec's own choice, D8. -/
def Obligations.FaultsArePrecise : Prop :=
  ∀ s t : State, s.run = .running → step s = .next t → t.run = .faulted →
    t.tape = s.tape ∧ t.ip = s.ip ∧ t.inCursor = s.inCursor ∧ t.outq = s.outq ∧ t.inq = s.inq ∧
    t.cfg = s.cfg ∧ t.fault.ip = s.ip

/-- 60_exceptions.md section 1: the record a step leaves is one that the cause table allows: for each
cause the slot and the value of the table, for ARITH_OVERFLOW the wrapped exact result of the ADD or
MUL at IP, which does not fit. The spec's own choice, D2 and D6 (log 6, log 12). -/
def Obligations.FaultRecordMatchesItsCause : Prop :=
  ∀ s t : State, Inv s → s.run = .running → step s = .next t → t.run = .faulted → FaultRecordLegal t

/-! ## The whole machine -/

/-- 10_state.md section 1 and 40_cycle.md section 5: only ADD, MUL and IN change the tape, at their
dest and nowhere else; only OUT changes the outputs; no instruction does both. -/
def Obligations.TapeChangesOnlyAtTheDestination : Prop :=
  ∀ s t : State, step s = .next t →
    (t.tape ≠ s.tape → ∃ (i : Instr) (dest : Word), s.run = .running ∧ fetch s = .ok i ∧
      ((∃ a b, i = .add a b dest) ∨ (∃ a b, i = .mul a b dest) ∨ i = .inp dest) ∧
      (∀ v : Int, v ≠ dest → t.tape.read v = s.tape.read v) ∧ t.outq = s.outq) ∧
    (t.outq ≠ s.outq → ∃ (src v : Word), s.run = .running ∧ fetch s = .ok (.out src) ∧
      s.tape.read src = some v ∧ t.outq = s.outq ++ [v] ∧ t.tape = s.tape)

/-- 40_cycle.md section 6 and 10_state.md section 2: a completed instruction other than HALT moves IP
by its length and leaves it on the tape; on HALT, on a fault and after the end IP holds. The order of
reading and advancing is the spec's own choice, D12. -/
def Obligations.IpAdvancesByTheLengthOrHolds : Prop :=
  ∀ s t : State, step s = .next t →
    (s.run = .running → t.run = .running →
      ∃ i, fetch s = .ok i ∧ t.ip = s.ip + instrLength i ∧ 2 ≤ instrLength i ∧ t.ip ≤ t.n) ∧
    (¬ (s.run = .running ∧ t.run = .running) → t.ip = s.ip)

/-- 40_cycle.md section 3: a completed instruction does what its row of the control table says: IP
moves by the row's increment, the cursor and the outputs move exactly where the row pops or pushes, the
value pushed is data read 1, only the address in the row's write slot changes on the tape, a row with
an ALU operation writes that operation's wrapped result of its two data reads there, a row that pops
writes the input value the cursor stood at there, and the run is HALTED exactly where the row halts;
the operand words are those after the opcode word; the ALU operations are ADD's and MUL's own, every
decoded opcode is valid, and the row of INVALID does nothing. The table is the spec's own choice, D12 (log 13),
and so is the wrapped result, D2 (log 6). -/
def Obligations.CompletedStepsFollowTheControlTable : Prop :=
  ((controlRow (some .add)).aluOp = some .add ∧ (controlRow (some .mul)).aluOp = some .mul ∧
    (∀ op, (controlRow (some op)).valid = true) ∧
    controlRow none = ⟨false, 0, [], none, none, none, none, false, false, false⟩) ∧
  ∀ (s t : State) (i : Instr), s.run = .running → fetch s = .ok i → step s = .next t →
    t.run ≠ .faulted →
    (controlOf i).operandWords = (List.range (instrLength i)).drop 1 ∧
    t.ip = s.ip + (controlOf i).ipIncrement ∧
    t.inCursor = s.inCursor + (if (controlOf i).inputPop then 1 else 0) ∧
    ((controlOf i).outputPush = false → t.outq = s.outq) ∧
    ((controlOf i).outputPush = true →
      ∃ v, dataRead s i (controlOf i).dataRead1 = some v ∧ t.outq = s.outq ++ [v]) ∧
    ((controlOf i).tapeWrite = none → t.tape = s.tape) ∧
    (∀ k a, (controlOf i).tapeWrite = some k → operandWord i k = some a →
      ∀ v : Int, v ≠ a → t.tape.read v = s.tape.read v) ∧
    (∀ op k a, (controlOf i).aluOp = some op →
      (controlOf i).tapeWrite = some k → operandWord i k = some a →
      ∃ x y, dataRead s i (controlOf i).dataRead1 = some x ∧
        dataRead s i (controlOf i).dataRead2 = some y ∧
        t.tape.read a = some (alu s.cfg.w op x y).2) ∧
    (∀ k a, (controlOf i).inputPop = true → (controlOf i).tapeWrite = some k → operandWord i k = some a →
      ∃ v, s.inq[s.inCursor]? = some v ∧ t.tape.read a = some v) ∧
    (t.run = .halted ↔ (controlOf i).halt = true)

/-- 10_state.md section 4: only a completed IN moves the input cursor, by one, and it stores the value
the cursor stood at. -/
def Obligations.InputIsConsumedOnlyByIn : Prop :=
  ∀ s t : State, step s = .next t → t.inCursor ≠ s.inCursor →
    ∃ (dest v : Word), s.run = .running ∧ fetch s = .ok (.inp dest) ∧ t.run = .running ∧
      t.inCursor = s.inCursor + 1 ∧ s.inq[s.inCursor]? = some v ∧ t.tape.read dest = some v

/-- 42_io.md section 3: over any number of steps the output read before is a prefix of the output read
after, the fault and the halt included. Reading during a run is the spec's own choice, D14. -/
def Obligations.OutputIsAppendOnly : Prop :=
  ∀ (s t : State) (k : Nat), runFor k s = .next t → readOutput s <+: readOutput t

/-- 10_state.md R31: no run changes the parameters, the input queue or the tape length. -/
def Obligations.ConfigurationIsFixed : Prop :=
  ∀ (s t : State) (k : Nat), runFor k s = .next t → t.cfg = s.cfg ∧ t.inq = s.inq ∧ t.n = s.n

/-- 20_memory.md section 4: a write is visible to the very next fetch. An ADD or MUL whose dest is the
next instruction's opcode word, and an IN likewise, leave at the new IP the word they wrote, and the
next step decodes it: it halts on 99 and faults on a word that does not decode. The spec's own choice:
D13 (log 13) for the visibility, D2 (log 6) for the wrapped word, D6 (log 12) for the fault record. -/
def Obligations.WrittenOpcodeIsFetchedNext : Prop :=
  ∀ (s t : State) (v : Word), s.run = .running → t.run = .running →
    ((∃ a b x y, s.tape.read a = some x ∧ s.tape.read b = some y ∧
        ((exec (.add a b ((s.ip : Int) + 4)) s = .next t ∧ v = wrap s.cfg.w (x + y)) ∨
         (exec (.mul a b ((s.ip : Int) + 4)) s = .next t ∧ v = wrap s.cfg.w (x * y)))) ∨
      (exec (.inp ((s.ip : Int) + 2)) s = .next t ∧ s.inq[s.inCursor]? = some v)) →
    t.tape.read (t.ip : Int) = some v ∧
    (opcodeOf v = 99 → step t = .next { t with run := .halted }) ∧
    (decodeOpcode v = none →
      step t = .next { t with run := .faulted, fault := ⟨.decodeFailure, 0, t.ip, v⟩ })

/-- 40_cycle.md section 7: every run ends, HALTED or FAULTED, within floor(N/2) + 1 steps, from every
state. The spec derives the bound itself. That exactly floor(N/2) + 1 steps can be run past an earlier
end is the model's choice (log 8: a step of an ended engine answers the same state). -/
def Obligations.EveryRunEnds : Prop :=
  ∀ s : State, ∃ t, runFor (s.n / 2 + 1) s = .next t ∧ Ended t

/-- 43_halt.md section 2: every run ends in exactly one of HALTED and FAULTED. That every run ends is the
bound which the spec derives itself. -/
def Obligations.EveryRunEndsHaltedOrFaulted : Prop :=
  ∀ s : State, (EndsHalted s ∧ ¬ EndsFaulted s) ∨ (EndsFaulted s ∧ ¬ EndsHalted s)

/-- 10_state.md sections 1 to 7: the invariant at reset. The empty tape, the empty queue and AW = 64
are the model's choice (log 1, log 5). -/
def Obligations.InvariantHoldsAtReset : Prop := Inv State.reset

/-- 70_reset_and_hazards.md section 1: the invariant holds after every construction that is not
refused. -/
def Obligations.InvariantHoldsAfterConstruction : Prop :=
  ∀ (c : Config) (t : Memory) (q : List Word) (s : State), construct c t q = .next s → Inv s

/-- 10_state.md sections 1 to 7: every step keeps the invariant: word ranges, N, 0 ≤ ip ≤ N, the
cursor in [0, L], two words of IP for each input and output, and the fault record reading 0 or legal.
The fault record is the spec's own choice, D2 and D6 (log 6, log 12). -/
def Obligations.EveryStepKeepsTheInvariant : Prop :=
  ∀ s t : State, Inv s → step s = .next t → Inv t

/-- 92_eei_decisions.md D5: the width of the IP register is not observable: a step is the same for
every AW. The spec's own choice, D5. -/
def Obligations.IpWidthIsNotObservable : Prop :=
  ∀ (s t : State) (k : Nat), step s = .next t →
    step { s with cfg := { s.cfg with aw := k } } = .next { t with cfg := { t.cfg with aw := k } }

/-- 10_state.md section 4: a step that does not run out of input does not depend on how many more
values stand in the queue. -/
def Obligations.UnreadInputDoesNotMatter : Prop :=
  ∀ (s t : State) (more : List Word), s.run = .running → step s = .next t →
    (t.run = .faulted → t.fault.cause ≠ .inputExhausted) →
    step { s with inq := s.inq ++ more } = .next { t with inq := t.inq ++ more }

/-! ## Construction and the host's view -/

/-- 10_state.md sections 8 and 9 and 70_reset_and_hazards.md section 1: what reset leaves. The empty tape
and queue and the parameters are the model's choice of one construction (log 1, log 4 to log 6). The
fault record at 0 is the spec's own choice, D22, and the STATUS word, which then reads 0, is D6 and D9
(log 12). -/
def Obligations.ResetLeavesTheInitialState : Prop :=
  State.reset.ip = 0 ∧ State.reset.inCursor = 0 ∧ State.reset.outq = [] ∧ State.reset.run = .running ∧
  State.reset.fault = ⟨.none, 0, 0, 0⟩ ∧ State.reset.tape = [] ∧ State.reset.inq = [] ∧
  State.reset.cfg = ⟨64, 64, .wrap⟩ ∧ statusReg State.reset = 0#8

/-- 70_reset_and_hazards.md section 1: construction sets every piece of state when the host's duties
are met, and is refused when one is not. The spec's own choice, D4, D16 and D22; the refusal of W = 0
is log 4. -/
def Obligations.ConstructionSetsEveryField : Prop :=
  ∀ (c : Config) (t : Memory) (q : List Word),
    ((1 ≤ c.w ∧ (∀ v ∈ t, InRange c.w v) ∧ (∀ v ∈ q, InRange c.w v) ∧ t.length ≤ 2 ^ c.aw - 1) →
      ∃ s, construct c t q = .next s ∧ s.cfg = c ∧ s.tape = t ∧ s.inq = q ∧ s.ip = 0 ∧ s.inCursor = 0 ∧
        s.outq = [] ∧ s.run = .running ∧ s.fault = FaultRecord.zero) ∧
    (¬ (1 ≤ c.w ∧ (∀ v ∈ t, InRange c.w v) ∧ (∀ v ∈ q, InRange c.w v) ∧ t.length ≤ 2 ^ c.aw - 1) →
      ∃ r, construct c t q = .refused r)

/-- The table word placed at IP is the instruction the next step runs, at W = 64 (log 2). -/
def Obligations.PlacedTableWordRunsNext : Prop :=
  ∀ (s : State) (nbits w : Nat) (i : Instr), s.cfg.w = 64 → decodeTableWord nbits w = some i →
    step (s.withFetchWord nbits w) = exec i (s.withFetchWord nbits w)

/-- 10_state.md sections 6 to 8 and 60_exceptions.md section 1: the STATUS word. Bits 1:0 hold the run
state, RUNNING 0, HALTED 1, FAULTED 2; in FAULTED bits 5:2 hold the code of the cause, 1 to 6, and bits
7:6 the slot, and the record reads as it stands; outside FAULTED every fault field reads 0. The spec's
own choice, D6 and D9 (log 12). -/
def Obligations.StatusWordLayout : Prop :=
  ∀ s : State,
    (s.run = .running → (statusReg s).extractLsb' 0 2 = 0#2) ∧
    (s.run = .halted → (statusReg s).extractLsb' 0 2 = 1#2) ∧
    (s.run = .faulted →
      (statusReg s).extractLsb' 0 2 = 2#2 ∧
      (s.fault.cause = .none → (statusReg s).extractLsb' 2 4 = 0#4) ∧
      (s.fault.cause = .decodeFailure → (statusReg s).extractLsb' 2 4 = 1#4) ∧
      (s.fault.cause = .oobIp → (statusReg s).extractLsb' 2 4 = 2#4) ∧
      (s.fault.cause = .oobFetch → (statusReg s).extractLsb' 2 4 = 3#4) ∧
      (s.fault.cause = .oobAddress → (statusReg s).extractLsb' 2 4 = 4#4) ∧
      (s.fault.cause = .inputExhausted → (statusReg s).extractLsb' 2 4 = 5#4) ∧
      (s.fault.cause = .arithOverflow → (statusReg s).extractLsb' 2 4 = 6#4) ∧
      ((statusReg s).extractLsb' 6 2).toNat = s.fault.slot.val ∧ faultReadout s = s.fault) ∧
    (s.run ≠ .faulted →
      (statusReg s).extractLsb' 2 4 = 0#4 ∧ (statusReg s).extractLsb' 6 2 = 0#2 ∧
      faultReadout s = ⟨.none, 0, 0, 0⟩ ∧ faultIpReg s = 0 ∧ faultValueReg s = 0)

/-- 10_state.md section 8: the widths of the status entries are enough: the host reads back from IP,
FAULT_IP and FAULT_VALUE exactly the values they stand for. The spec's own choice, D5 and D6. -/
def Obligations.StatusRegistersLoseNothing : Prop :=
  ∀ s : State, Inv s →
    (ipReg s).toNat = s.ip ∧ (faultIpReg s).toNat = (faultReadout s).ip ∧
    faultValueRead s = (faultReadout s).value

/-- 70_reset_and_hazards.md section 2: no read-back while the engine runs; after the end it gives the
final values, and they stay. The spec's own choice, D14 and D23. -/
def Obligations.ReadBackIsFinal : Prop :=
  ∀ (s t : State) (k : Nat), runFor k s = .next t →
    (s.run = .running → readBack s = none) ∧
    (Ended s → readBack s = some ⟨s.run, s.tape, s.outq, faultReadout s, s.ip, s.inCursor⟩ ∧
      readBack t = readBack s)
end

