-- ==== Sys2Proof/Laws/Decode.lean ====
section
/-! SUPPORT. What the decoder answers, said once (40_cycle.md R82 to R86). -/

namespace Sys2Proof

/-- A format F4 decode has its three operand words, or names the first one missing. -/
theorem decodeF4_cases (mk : Word → Word → Word → Instr) (ws : List Word) :
    (∃ a b d rest, ws = a :: b :: d :: rest ∧ decodeF4 mk ws = .ok (mk a b d, rest)) ∨
    (∃ k : Fin 4, k.val = ws.length + 1 ∧ decodeF4 mk ws = .error (.missing k)) := by
  match ws with
  | [] => exact .inr ⟨1, rfl, rfl⟩
  | [_] => exact .inr ⟨2, rfl, rfl⟩
  | [_, _] => exact .inr ⟨3, rfl, rfl⟩
  | a :: b :: d :: rest => exact .inl ⟨a, b, d, rest, rfl, rfl⟩

/-- A format F2 decode has its operand word, or says that it is missing. -/
theorem decodeF2_cases (mk : Word → Instr) (ws : List Word) :
    (∃ v rest, ws = v :: rest ∧ decodeF2 mk ws = .ok (mk v, rest)) ∨
    (ws = [] ∧ decodeF2 mk ws = .error (.missing 1)) := by
  match ws with
  | [] => exact .inr ⟨rfl, rfl⟩
  | v :: rest => exact .inl ⟨v, rest, rfl, rfl⟩

/-- Everything that decoding words with an opcode word at their head can answer. -/
theorem decode_cons_cases (w0 : Word) (ws : List Word) :
    (decodeOpcode w0 = none ∧ decode (w0 :: ws) = .error (.invalid w0)) ∨
    (decodeOpcode w0 = some .halt ∧ decode (w0 :: ws) = .ok (.halt, ws)) ∨
    (decodeOpcode w0 = some .add ∧ decode (w0 :: ws) = decodeF4 .add ws) ∨
    (decodeOpcode w0 = some .mul ∧ decode (w0 :: ws) = decodeF4 .mul ws) ∨
    (decodeOpcode w0 = some .inp ∧ decode (w0 :: ws) = decodeF2 .inp ws) ∨
    (decodeOpcode w0 = some .out ∧ decode (w0 :: ws) = decodeF2 .out ws) := by
  rcases h : decodeOpcode w0 with _ | (_ | _ | _ | _ | _) <;> simp [decode, h]

/-- A decoded instruction: its opcode word decodes to its opcode, and the words after it are its
operand words and the rest. -/
theorem decode_ok {ws : List Word} {i : Instr} {rest : List Word} (h : decode ws = .ok (i, rest)) :
    ∃ w0, decodeOpcode w0 = some (instrOpcode i) ∧ ws = w0 :: ((encode i).tail ++ rest) := by
  match ws with
  | [] => cases h
  | w0 :: ws =>
    rcases decode_cons_cases w0 ws with ⟨_, e⟩ | ⟨o, e⟩ | ⟨o, e⟩ | ⟨o, e⟩ | ⟨o, e⟩ | ⟨o, e⟩ <;> rw [e] at h
    · cases h
    · cases h
      exact ⟨w0, o, rfl⟩
    · rcases decodeF4_cases .add ws with ⟨a, b, d, r, rfl, e'⟩ | ⟨k, _, e'⟩ <;> rw [e'] at h <;> cases h
      exact ⟨w0, o, rfl⟩
    · rcases decodeF4_cases .mul ws with ⟨a, b, d, r, rfl, e'⟩ | ⟨k, _, e'⟩ <;> rw [e'] at h <;> cases h
      exact ⟨w0, o, rfl⟩
    · rcases decodeF2_cases .inp ws with ⟨v, r, rfl, e'⟩ | ⟨_, e'⟩ <;> rw [e'] at h <;> cases h
      exact ⟨w0, o, rfl⟩
    · rcases decodeF2_cases .out ws with ⟨v, r, rfl, e'⟩ | ⟨_, e'⟩ <;> rw [e'] at h <;> cases h
      exact ⟨w0, o, rfl⟩

/-- A failed decode: no word at all, an invalid opcode word, or the first missing operand word of a
valid one. -/
theorem decode_error {ws : List Word} {e : DecodeError} (h : decode ws = .error e) :
    (ws = [] ∧ e = .noOpcode) ∨
    (∃ w0 t, ws = w0 :: t ∧ decodeOpcode w0 = none ∧ e = .invalid w0) ∨
    (∃ w0 t op k, ws = w0 :: t ∧ decodeOpcode w0 = some op ∧ e = .missing k ∧ k.val = t.length + 1 ∧
      k.val < opcodeLength op) := by
  match ws with
  | [] => cases h; exact .inl ⟨rfl, rfl⟩
  | w0 :: ws =>
    rcases decode_cons_cases w0 ws with ⟨o, q⟩ | ⟨o, q⟩ | ⟨o, q⟩ | ⟨o, q⟩ | ⟨o, q⟩ | ⟨o, q⟩ <;> rw [q] at h
    · cases h
      exact .inr (.inl ⟨w0, ws, rfl, o, rfl⟩)
    · cases h
    · rcases decodeF4_cases .add ws with ⟨a, b, d, r, rfl, e'⟩ | ⟨k, hk, e'⟩ <;> rw [e'] at h <;> cases h
      exact .inr (.inr ⟨w0, ws, _, k, rfl, o, rfl, hk, k.isLt⟩)
    · rcases decodeF4_cases .mul ws with ⟨a, b, d, r, rfl, e'⟩ | ⟨k, hk, e'⟩ <;> rw [e'] at h <;> cases h
      exact .inr (.inr ⟨w0, ws, _, k, rfl, o, rfl, hk, k.isLt⟩)
    · rcases decodeF2_cases .inp ws with ⟨v, r, rfl, e'⟩ | ⟨rfl, e'⟩ <;> rw [e'] at h <;> cases h
      exact .inr (.inr ⟨w0, [], _, 1, rfl, o, rfl, rfl, Nat.one_lt_two⟩)
    · rcases decodeF2_cases .out ws with ⟨v, r, rfl, e'⟩ | ⟨rfl, e'⟩ <;> rw [e'] at h <;> cases h
      exact .inr (.inr ⟨w0, [], _, 1, rfl, o, rfl, rfl, Nat.one_lt_two⟩)

end Sys2Proof
end

