-- ==== Sys2Proof/Laws/State.lean ====
section
/-! SUPPORT. What each update of the state leaves in each field, true by definition, so that no proof
unfolds a record update. -/

namespace Sys2Proof.Machine

@[simp] theorem takeFault_cfg (f : FaultRecord) (s : State) : (takeFault f s).cfg = s.cfg := rfl
@[simp] theorem takeFault_tape (f : FaultRecord) (s : State) : (takeFault f s).tape = s.tape := rfl
@[simp] theorem takeFault_inq (f : FaultRecord) (s : State) : (takeFault f s).inq = s.inq := rfl
@[simp] theorem takeFault_ip (f : FaultRecord) (s : State) : (takeFault f s).ip = s.ip := rfl
@[simp] theorem takeFault_inCursor (f : FaultRecord) (s : State) : (takeFault f s).inCursor = s.inCursor := rfl
@[simp] theorem takeFault_outq (f : FaultRecord) (s : State) : (takeFault f s).outq = s.outq := rfl
@[simp] theorem takeFault_run (f : FaultRecord) (s : State) : (takeFault f s).run = .faulted := rfl
@[simp] theorem takeFault_fault (f : FaultRecord) (s : State) : (takeFault f s).fault = f := rfl

@[simp] theorem memWrite_cfg (i : Nat) (v : Word) (s : State) : (memWrite i v s).cfg = s.cfg := rfl
@[simp] theorem memWrite_tape (i : Nat) (v : Word) (s : State) : (memWrite i v s).tape = s.tape.write i v := rfl
@[simp] theorem memWrite_inq (i : Nat) (v : Word) (s : State) : (memWrite i v s).inq = s.inq := rfl
@[simp] theorem memWrite_ip (i : Nat) (v : Word) (s : State) : (memWrite i v s).ip = s.ip := rfl
@[simp] theorem memWrite_inCursor (i : Nat) (v : Word) (s : State) : (memWrite i v s).inCursor = s.inCursor := rfl
@[simp] theorem memWrite_outq (i : Nat) (v : Word) (s : State) : (memWrite i v s).outq = s.outq := rfl
@[simp] theorem memWrite_run (i : Nat) (v : Word) (s : State) : (memWrite i v s).run = s.run := rfl
@[simp] theorem memWrite_fault (i : Nat) (v : Word) (s : State) : (memWrite i v s).fault = s.fault := rfl

@[simp] theorem consumeInput_cfg (s : State) : (consumeInput s).cfg = s.cfg := rfl
@[simp] theorem consumeInput_tape (s : State) : (consumeInput s).tape = s.tape := rfl
@[simp] theorem consumeInput_inq (s : State) : (consumeInput s).inq = s.inq := rfl
@[simp] theorem consumeInput_ip (s : State) : (consumeInput s).ip = s.ip := rfl
@[simp] theorem consumeInput_inCursor (s : State) : (consumeInput s).inCursor = s.inCursor + 1 := rfl
@[simp] theorem consumeInput_outq (s : State) : (consumeInput s).outq = s.outq := rfl
@[simp] theorem consumeInput_run (s : State) : (consumeInput s).run = s.run := rfl
@[simp] theorem consumeInput_fault (s : State) : (consumeInput s).fault = s.fault := rfl

@[simp] theorem outPush_cfg (v : Word) (s : State) : (outPush v s).cfg = s.cfg := rfl
@[simp] theorem outPush_tape (v : Word) (s : State) : (outPush v s).tape = s.tape := rfl
@[simp] theorem outPush_inq (v : Word) (s : State) : (outPush v s).inq = s.inq := rfl
@[simp] theorem outPush_ip (v : Word) (s : State) : (outPush v s).ip = s.ip := rfl
@[simp] theorem outPush_inCursor (v : Word) (s : State) : (outPush v s).inCursor = s.inCursor := rfl
@[simp] theorem outPush_outq (v : Word) (s : State) : (outPush v s).outq = s.outq ++ [v] := rfl
@[simp] theorem outPush_run (v : Word) (s : State) : (outPush v s).run = s.run := rfl
@[simp] theorem outPush_fault (v : Word) (s : State) : (outPush v s).fault = s.fault := rfl

@[simp] theorem advance_cfg (len : Nat) (s : State) : (advance len s).cfg = s.cfg := rfl
@[simp] theorem advance_tape (len : Nat) (s : State) : (advance len s).tape = s.tape := rfl
@[simp] theorem advance_inq (len : Nat) (s : State) : (advance len s).inq = s.inq := rfl
@[simp] theorem advance_ip (len : Nat) (s : State) : (advance len s).ip = s.ip + len := rfl
@[simp] theorem advance_inCursor (len : Nat) (s : State) : (advance len s).inCursor = s.inCursor := rfl
@[simp] theorem advance_outq (len : Nat) (s : State) : (advance len s).outq = s.outq := rfl
@[simp] theorem advance_run (len : Nat) (s : State) : (advance len s).run = s.run := rfl
@[simp] theorem advance_fault (len : Nat) (s : State) : (advance len s).fault = s.fault := rfl

@[simp] theorem enterHalt_cfg (s : State) : (enterHalt s).cfg = s.cfg := rfl
@[simp] theorem enterHalt_tape (s : State) : (enterHalt s).tape = s.tape := rfl
@[simp] theorem enterHalt_inq (s : State) : (enterHalt s).inq = s.inq := rfl
@[simp] theorem enterHalt_ip (s : State) : (enterHalt s).ip = s.ip := rfl
@[simp] theorem enterHalt_inCursor (s : State) : (enterHalt s).inCursor = s.inCursor := rfl
@[simp] theorem enterHalt_outq (s : State) : (enterHalt s).outq = s.outq := rfl
@[simp] theorem enterHalt_run (s : State) : (enterHalt s).run = .halted := rfl
@[simp] theorem enterHalt_fault (s : State) : (enterHalt s).fault = s.fault := rfl

@[simp] theorem initial_cfg (c : Config) (t : Memory) (q : List Word) :
    (State.initial c t q).cfg = c := rfl
@[simp] theorem initial_tape (c : Config) (t : Memory) (q : List Word) :
    (State.initial c t q).tape = t := rfl
@[simp] theorem initial_inq (c : Config) (t : Memory) (q : List Word) :
    (State.initial c t q).inq = q := rfl
@[simp] theorem initial_ip (c : Config) (t : Memory) (q : List Word) :
    (State.initial c t q).ip = 0 := rfl
@[simp] theorem initial_inCursor (c : Config) (t : Memory) (q : List Word) :
    (State.initial c t q).inCursor = 0 := rfl
@[simp] theorem initial_outq (c : Config) (t : Memory) (q : List Word) :
    (State.initial c t q).outq = [] := rfl
@[simp] theorem initial_run (c : Config) (t : Memory) (q : List Word) :
    (State.initial c t q).run = .running := rfl
@[simp] theorem initial_fault (c : Config) (t : Memory) (q : List Word) :
    (State.initial c t q).fault = FaultRecord.zero := rfl

@[simp] theorem placeWords_cfg (ws : List Word) (s : State) :
    (placeWords ws s).cfg = s.cfg := rfl
@[simp] theorem placeWords_inq (ws : List Word) (s : State) :
    (placeWords ws s).inq = s.inq := rfl
@[simp] theorem placeWords_ip (ws : List Word) (s : State) :
    (placeWords ws s).ip = s.ip := rfl
@[simp] theorem placeWords_inCursor (ws : List Word) (s : State) :
    (placeWords ws s).inCursor = s.inCursor := rfl
@[simp] theorem placeWords_outq (ws : List Word) (s : State) :
    (placeWords ws s).outq = s.outq := rfl
@[simp] theorem placeWords_run (ws : List Word) (s : State) :
    (placeWords ws s).run = .running := rfl
@[simp] theorem placeWords_fault (ws : List Word) (s : State) :
    (placeWords ws s).fault = FaultRecord.zero := rfl

/-- `n` is the length of a field. -/
theorem n_eq (s : State) : s.n = s.tape.length := rfl
/-- `l` is the length of a field. -/
theorem l_eq (s : State) : s.l = s.inq.length := rfl
/-- `outCursor` is the length of a field. -/
theorem outCursor_eq (s : State) : s.outCursor = s.outq.length := rfl

end Sys2Proof.Machine
end

