-- ==== Sys2Proof/Laws/Word.lean ====
section
/-! SUPPORT. The range of `wrap` (00_scope.md R8). -/

namespace Sys2Proof

theorem half_pos (w : Nat) : 0 < half w := by
  unfold half
  exact_mod_cast Nat.pow_pos (by norm_num)

theorem modulus_eq {w : Nat} (h : 1 ≤ w) : modulus w = 2 * half w := by
  obtain ⟨k, rfl⟩ := Nat.exists_eq_add_of_le h
  simp [modulus, half, pow_add]

/-- `wrap` gives a W-bit word. -/
theorem wrap_inRange {w : Nat} (h : 1 ≤ w) (v : Int) : InRange w (wrap w v) := by
  have hp := half_pos w
  have hm := modulus_eq h
  have h0 := Int.emod_nonneg v (show modulus w ≠ 0 by omega)
  have h1 := Int.emod_lt_of_pos v (show 0 < modulus w by omega)
  unfold wrap InRange
  split <;> omega

/-- `wrap` leaves a value that fits as it is (00_scope.md R8). -/
theorem wrap_of_inRange {w : Nat} (h : 1 ≤ w) {v : Int} (hv : InRange w v) : wrap w v = v := by
  have hp := half_pos w
  have hm := modulus_eq h
  obtain ⟨hl, hu⟩ := hv
  unfold wrap
  rcases lt_or_ge v 0 with hneg | hpos
  · have : v % modulus w = v + modulus w := by
      rw [← Int.add_emod_right, Int.emod_eq_of_lt] <;> omega
    rw [this]
    split <;> omega
  · rw [Int.emod_eq_of_lt hpos (by omega)]
    split <;> omega

end Sys2Proof
end

