-- ==== Sys2Proof/Laws/Memory.lean ====
section
/-! SUPPORT. The tape: a read after a write, and that a write keeps the tape's form. -/

namespace Sys2Proof.Machine

/-- A word is there exactly at the valid addresses (20_memory.md R41). -/
theorem read_isSome_iff (s : State) (v : Int) : (s.tape.read v).isSome = true ↔ ValidAddress s v := by
  unfold Memory.read ValidAddress State.n
  split
  · rw [Option.isSome_iff_ne_none, ne_eq, List.getElem?_eq_none_iff]
    omega
  · simp; omega

theorem valid_of_read {s : State} {v : Int} {x : Word} (h : s.tape.read v = some x) : ValidAddress s v :=
  (read_isSome_iff s v).1 (by rw [h]; rfl)

theorem read_of_valid {s : State} {v : Int} (h : ValidAddress s v) : ∃ x, s.tape.read v = some x :=
  Option.isSome_iff_exists.1 ((read_isSome_iff s v).2 h)

theorem read_eq_none_iff (s : State) (v : Int) : s.tape.read v = none ↔ ¬ ValidAddress s v := by
  rw [← read_isSome_iff]; simp

/-- Reading at an index given as a natural number. -/
theorem read_natCast (m : Memory) (i : Nat) : m.read (i : Int) = m[i]? := by
  simp [Memory.read]

@[simp] theorem write_length (m : Memory) (i : Nat) (v : Word) : (m.write i v).length = m.length := by
  simp [Memory.write]

/-- A read after a write to the same index gives the word written (20_memory.md R48). -/
theorem read_write_same {m : Memory} {i : Nat} (h : i < m.length) (v : Word) :
    (m.write i v).read (i : Int) = some v := by
  simp [Memory.read, Memory.write, h]

/-- A write leaves every other address as it was (20_memory.md R42). -/
theorem read_write_other (m : Memory) {i : Nat} {a : Int} (h : a ≠ (i : Int)) (v : Word) :
    (m.write i v).read a = m.read a := by
  unfold Memory.read Memory.write
  split
  · rw [List.getElem?_set_ne (by omega)]
  · rfl

/-- A word read from a tape in form is a W-bit word. -/
theorem inRange_of_read {w : Nat} {m : Memory} (hm : m.wf w = true) {a : Int} {x : Word}
    (h : m.read a = some x) : InRange w x := by
  unfold Memory.read at h
  split at h
  · exact of_decide_eq_true (List.all_eq_true.1 hm x (List.mem_of_getElem? h))
  · cases h

/-- A write keeps the tape's form. -/
theorem wf_write {w : Nat} {m : Memory} (hm : m.wf w = true) {v : Word} (hv : InRange w v) (i : Nat) :
    (m.write i v).wf w = true := by
  rw [Memory.wf, List.all_eq_true]
  intro x hx
  rcases List.mem_or_eq_of_mem_set hx with h | rfl
  · exact List.all_eq_true.1 hm x h
  · exact decide_eq_true hv

theorem wf_append {w : Nat} {a b : List Word} :
    Memory.wf w (a ++ b) = true ↔ Memory.wf w a = true ∧ Memory.wf w b = true := by
  simp [Memory.wf]

theorem wf_sublist {w : Nat} {a b : List Word} (h : List.Sublist a b) (hb : Memory.wf w b = true) :
    Memory.wf w a = true :=
  List.all_eq_true.2 fun v hv => List.all_eq_true.1 hb v (h.subset hv)

/-- Placing W-bit words at IP keeps the tape's form. -/
theorem wf_placeWords {ws : List Word} {s : State} (hs : s.tape.wf s.cfg.w = true)
    (hws : Memory.wf s.cfg.w ws = true) : (placeWords ws s).tape.wf s.cfg.w = true := by
  have zero : InRange s.cfg.w 0 := by
    have := half_pos s.cfg.w
    constructor <;> omega
  have pad : Memory.wf s.cfg.w (List.replicate (s.ip - s.n) 0) = true :=
    List.all_eq_true.2 fun v hv => by rw [List.eq_of_mem_replicate hv]; exact decide_eq_true zero
  exact wf_append.2 ⟨wf_append.2 ⟨wf_sublist (List.take_sublist _ _) (wf_append.2 ⟨hs, pad⟩), hws⟩,
    wf_sublist (List.drop_sublist _ _) hs⟩

/-- The words of a table word are W-bit words. -/
theorem wf_tableWords {w : Nat} (h : 1 ≤ w) (nbits bits : Nat) :
    Memory.wf w (tableWords w nbits bits) = true :=
  List.all_eq_true.2 fun v hv => by
    obtain ⟨k, _, rfl⟩ := List.mem_map.1 hv
    exact decide_eq_true (wrap_inRange h _)

/-- The reset tape has the tape's form. -/
theorem reset_tape_wf : State.reset.tape.wf State.reset.cfg.w = true := by decide

end Sys2Proof.Machine
end

