-- ==== Sys2Proof/Laws/Ops.lean ====
section
/-! SUPPORT. One lemma per shared operation: everything it can answer. -/

namespace Sys2Proof.Machine

/-- A step's end is always a next state: the completed state, or the entry of the fault raised. -/
theorem endStep_eq (s : State) (r : Except FaultRecord State) :
    (∃ t, r = .ok t ∧ endStep s r = .next t) ∨ (∃ f, r = .error f ∧ endStep s r = .next (takeFault f s)) := by
  cases r with
  | ok t => exact .inl ⟨t, rfl, rfl⟩
  | error f => exact .inr ⟨f, rfl, rfl⟩

/-- The bounds check passes exactly at a valid address, with that address as the index. -/
theorem checkAddress_cases (s : State) (slot : Fin 4) (v : Int) :
    (ValidAddress s v ∧ checkAddress s slot v = .ok v.toNat) ∨
    (¬ ValidAddress s v ∧ checkAddress s slot v = .error (faultAt s .oobAddress slot v)) := by
  unfold checkAddress
  by_cases h : ValidAddress s v
  · exact .inl ⟨h, if_pos h⟩
  · exact .inr ⟨h, if_neg h⟩

/-- The checked read gives the word at a valid address, and faults at every other. -/
theorem memRead_cases (s : State) (slot : Fin 4) (v : Int) :
    (∃ x, ValidAddress s v ∧ s.tape.read v = some x ∧ memRead s slot v = .ok x) ∨
    (¬ ValidAddress s v ∧ memRead s slot v = .error (faultAt s .oobAddress slot v)) := by
  unfold memRead
  cases h : s.tape.read v with
  | some x => exact .inl ⟨x, valid_of_read h, rfl, rfl⟩
  | none => exact .inr ⟨(read_eq_none_iff s v).1 h, rfl⟩

/-- The next input value, or exhaustion at the end of the queue. -/
theorem nextInput_cases (s : State) :
    (∃ v, s.inq[s.inCursor]? = some v ∧ s.inCursor < s.l ∧ nextInput s = .ok v) ∨
    (s.l ≤ s.inCursor ∧ nextInput s = .error (faultAt s .inputExhausted 0 (s.inCursor : Int))) := by
  unfold nextInput
  cases h : s.inq[s.inCursor]? with
  | some v => exact .inl ⟨v, rfl, (List.getElem?_eq_some_iff.1 h).1, rfl⟩
  | none => exact .inr ⟨List.getElem?_eq_none_iff.1 h, rfl⟩

/-- The ALU result under the policy: the wrapped exact result, unless it does not fit and the policy
is FAULT. -/
theorem aluResult_cases (s : State) (op : AluOp) (x y : Word) :
    ((s.cfg.policy = .wrap ∨ InRange s.cfg.w (aluExact op x y)) ∧
      aluResult s op x y = .ok (wrap s.cfg.w (aluExact op x y))) ∨
    (s.cfg.policy = .fault ∧ ¬ InRange s.cfg.w (aluExact op x y) ∧
      aluResult s op x y = .error (faultAt s .arithOverflow 0 (wrap s.cfg.w (aluExact op x y)))) := by
  unfold aluResult alu
  cases hp : s.cfg.policy with
  | wrap => exact .inl ⟨.inl rfl, rfl⟩
  | fault =>
    by_cases h : InRange s.cfg.w (aluExact op x y)
    · refine .inl ⟨.inr h, ?_⟩
      rw [decide_eq_false (not_not.2 h)]
    · refine .inr ⟨rfl, h, ?_⟩
      rw [decide_eq_true h]

/-- The operand phase of format F4: both words and the checked index, or the first address fault in
the order a, b, dest (41_arithmetic.md R100). -/
theorem fetchF4Data_cases (s : State) (a b dest : Word) :
    (∃ x y, s.tape.read a = some x ∧ s.tape.read b = some y ∧ ValidAddress s dest ∧
      fetchF4Data s a b dest = .ok ⟨x, y, dest.toNat⟩) ∨
    (∃ slot v, fetchF4Data s a b dest = .error (faultAt s .oobAddress slot v) ∧ ¬ ValidAddress s v ∧
      ((slot = 1 ∧ v = a) ∨ (slot = 2 ∧ v = b ∧ ValidAddress s a) ∨
        (slot = 3 ∧ v = dest ∧ ValidAddress s a ∧ ValidAddress s b))) := by
  unfold fetchF4Data
  rcases memRead_cases s 1 a with ⟨x, va, ha, ea⟩ | ⟨va, ea⟩
  · rcases memRead_cases s 2 b with ⟨y, vb, hb, eb⟩ | ⟨vb, eb⟩
    · rcases checkAddress_cases s 3 dest with ⟨vd, ed⟩ | ⟨vd, ed⟩
      · exact .inl ⟨x, y, ha, hb, vd, by rw [ea, eb, ed]; rfl⟩
      · exact .inr ⟨3, dest, by rw [ea, eb, ed]; rfl, vd, .inr (.inr ⟨rfl, rfl, va, vb⟩)⟩
    · exact .inr ⟨2, b, by rw [ea, eb]; rfl, vb, .inr (.inl ⟨rfl, rfl, va⟩)⟩
  · exact .inr ⟨1, a, by rw [ea]; rfl, va, .inl ⟨rfl, rfl⟩⟩

/-- What ARITH_OVERFLOW reports is a W-bit word. -/
theorem OverflowResult.inRange {s : State} {r : Int} (hw : s.cfg.Ok) (h : OverflowResult s r) :
    InRange s.cfg.w r := by
  obtain ⟨_, _, _, _, _, _, _, _, ⟨_, _, rfl⟩ | ⟨_, _, rfl⟩⟩ := h <;> exact wrap_inRange hw _

/-- The fetch at a fault entry is the fetch of the faulting step: tape and IP are the same. -/
@[simp] theorem fetch_takeFault (f : FaultRecord) (s : State) : fetch (takeFault f s) = fetch s := rfl

end Sys2Proof.Machine
end

