-- ==== Sys2Proof/Laws/PerInstr.lean ====
section
/-! SUPPORT. The family `RoundTrip`: for each constructor, decoding an instruction's own words gives
it back with the words after it (30_encoding.md R60, R70). -/

namespace Sys2Proof.Laws.RoundTrip

/-- Decoding the encoder's words of `i`, whatever follows them, gives `i`. -/
def Statement (i : Instr) : Prop := ∀ rest, decode (encode i ++ rest) = .ok (i, rest)

theorem add (a b dest : Word) : Statement (.add a b dest) := fun _ => rfl

theorem mul (a b dest : Word) : Statement (.mul a b dest) := fun _ => rfl

theorem inp (dest : Word) : Statement (.inp dest) := fun _ => rfl

theorem out (src : Word) : Statement (.out src) := fun _ => rfl

theorem halt : Statement .halt := fun _ => rfl

end Sys2Proof.Laws.RoundTrip
end

