-- ==== Sys2Proof/Laws/Step.lean ====
section
/-! SUPPORT. What an instruction and a step can do, said once: one inversion lemma for the meaning
shared by ADD and MUL, one each for IN, OUT and HALT, and one for the step. -/

namespace Sys2Proof.Machine

/-- ADD and MUL: the wrapped result written at dest and ip + 4, or the entry of an address fault or
of an overflow fault (41_arithmetic.md R103, R104). -/
theorem arithmetic_cases (op : AluOp) (a b dest : Word) (s : State) :
    (∃ x y, s.tape.read a = some x ∧ s.tape.read b = some y ∧ ValidAddress s dest ∧
      (s.cfg.policy = .wrap ∨ InRange s.cfg.w (aluExact op x y)) ∧
      endStep s (arithmetic op a b dest s) =
        .next (advance 4 (memWrite dest.toNat (wrap s.cfg.w (aluExact op x y)) s))) ∨
    (∃ slot v, ¬ ValidAddress s v ∧
      ((slot = 1 ∧ v = a) ∨ (slot = 2 ∧ v = b ∧ ValidAddress s a) ∨
        (slot = 3 ∧ v = dest ∧ ValidAddress s a ∧ ValidAddress s b)) ∧
      endStep s (arithmetic op a b dest s) = .next (takeFault (faultAt s .oobAddress slot v) s)) ∨
    (∃ x y, s.tape.read a = some x ∧ s.tape.read b = some y ∧ ValidAddress s dest ∧
      s.cfg.policy = .fault ∧ ¬ InRange s.cfg.w (aluExact op x y) ∧
      endStep s (arithmetic op a b dest s) =
        .next (takeFault (faultAt s .arithOverflow 0 (wrap s.cfg.w (aluExact op x y))) s)) := by
  unfold arithmetic
  rcases fetchF4Data_cases s a b dest with ⟨x, y, ha, hb, vd, e⟩ | ⟨slot, v, e, nv, hv⟩
  · rcases aluResult_cases s op x y with ⟨hp, r⟩ | ⟨hp, ho, r⟩
    · exact .inl ⟨x, y, ha, hb, vd, hp, by rw [e]; simp only [bind, Except.bind]; rw [r]; rfl⟩
    · exact .inr (.inr ⟨x, y, ha, hb, vd, hp, ho, by rw [e]; simp only [bind, Except.bind]; rw [r]; rfl⟩)
  · exact .inr (.inl ⟨slot, v, nv, hv, by rw [e]; rfl⟩)

/-- IN: the next input written at dest, the cursor and ip + 2, or one of its two fault entries, the
address first (42_io.md R120). -/
theorem execInp_cases (dest : Word) (s : State) :
    (∃ v, ValidAddress s dest ∧ s.inq[s.inCursor]? = some v ∧ s.inCursor < s.l ∧
      execInp dest s = .next (advance 2 (memWrite dest.toNat v (consumeInput s)))) ∨
    (¬ ValidAddress s dest ∧ execInp dest s = .next (takeFault (faultAt s .oobAddress 1 dest) s)) ∨
    (ValidAddress s dest ∧ s.l ≤ s.inCursor ∧
      execInp dest s = .next (takeFault (faultAt s .inputExhausted 0 (s.inCursor : Int)) s)) := by
  unfold execInp
  rcases checkAddress_cases s 1 dest with ⟨vd, ed⟩ | ⟨vd, ed⟩
  · rcases nextInput_cases s with ⟨v, hv, hl, ev⟩ | ⟨hl, ev⟩
    · exact .inl ⟨v, vd, hv, hl, by rw [ed, ev]; rfl⟩
    · exact .inr (.inr ⟨vd, hl, by rw [ed, ev]; rfl⟩)
  · exact .inr (.inl ⟨vd, by rw [ed]; rfl⟩)

/-- OUT: the word at src appended and ip + 2, or the entry of its address fault (42_io.md R121). -/
theorem execOut_cases (src : Word) (s : State) :
    (∃ v, ValidAddress s src ∧ s.tape.read src = some v ∧ execOut src s = .next (advance 2 (outPush v s))) ∨
    (¬ ValidAddress s src ∧ execOut src s = .next (takeFault (faultAt s .oobAddress 1 src) s)) := by
  unfold execOut
  rcases memRead_cases s 1 src with ⟨v, vs, hv, ev⟩ | ⟨vs, ev⟩
  · exact .inl ⟨v, vs, hv, by rw [ev]; rfl⟩
  · exact .inr ⟨vs, by rw [ev]; rfl⟩

/-- The fetch gives an instruction decoded from the tape at IP, or the fault of the first check that
fails there (40_cycle.md R82). -/
theorem fetch_cases (s : State) :
    (∃ i rest, decode (s.tape.drop s.ip) = .ok (i, rest) ∧ fetch s = .ok i) ∨
    (∃ e, decode (s.tape.drop s.ip) = .error e ∧ fetch s = .error (fetchFault s e)) := by
  unfold fetch
  cases h : decode (s.tape.drop s.ip) with
  | ok p => exact .inl ⟨p.1, p.2, rfl, rfl⟩
  | error e => exact .inr ⟨e, rfl, rfl⟩

/-- Everything a step can do: nothing once the run has ended, the fetched instruction's meaning, or
the entry of the fetch's fault. -/
theorem step_cases (s : State) :
    (Ended s ∧ step s = .next s) ∨
    (s.run = .running ∧ ∃ i, fetch s = .ok i ∧ step s = exec i s) ∨
    (s.run = .running ∧ ∃ f, fetch s = .error f ∧ step s = .next (takeFault f s)) := by
  unfold step Ended
  cases hr : s.run with
  | running =>
    cases hf : fetch s with
    | ok i => exact .inr (.inl ⟨rfl, i, rfl, rfl⟩)
    | error f => exact .inr (.inr ⟨rfl, f, rfl, rfl⟩)
  | halted => exact .inl ⟨by simp, rfl⟩
  | faulted => exact .inl ⟨by simp, rfl⟩

end Sys2Proof.Machine
end

