-- ==== Sys2Proof/Laws/Run.lean ====
section
/-! SUPPORT. Runs: a run unrolls one step at a time, every step has a next state, and the induction
along a run is packaged once. -/

namespace Sys2Proof.Machine

/-- Every instruction answers a next state: its effect or the entry of a fault. -/
theorem exec_next (i : Instr) (s : State) : ∃ t, exec i s = .next t := by
  have arith : ∀ op a b d, ∃ t, endStep s (arithmetic op a b d s) = .next t := fun op a b d => by
    rcases endStep_eq s (arithmetic op a b d s) with ⟨t, _, e⟩ | ⟨f, _, e⟩ <;> exact ⟨_, e⟩
  cases i with
  | add a b d => exact arith .add a b d
  | mul a b d => exact arith .mul a b d
  | inp d => rcases execInp_cases d s with ⟨_, _, _, _, e⟩ | ⟨_, e⟩ | ⟨_, _, e⟩ <;> exact ⟨_, e⟩
  | out d => rcases execOut_cases d s with ⟨_, _, _, e⟩ | ⟨_, e⟩ <;> exact ⟨_, e⟩
  | halt => exact ⟨_, rfl⟩

/-- Every step answers a next state. -/
theorem step_next (s : State) : ∃ t, step s = .next t := by
  rcases step_cases s with ⟨_, e⟩ | ⟨_, i, _, e⟩ | ⟨_, f, _, e⟩
  · exact ⟨_, e⟩
  · rw [e]; exact exec_next i s
  · exact ⟨_, e⟩

theorem core_run_succ (M : Host.Core) {s t : M.State} (h : M.step s = .next t) (k : Nat) :
    M.run (k + 1) s = M.run k t := by
  rw [Host.Core.run, h]

theorem runFor_zero (s : State) : runFor 0 s = .next s := rfl

/-- A run of one step more is the step and then the run. -/
theorem runFor_succ {s t : State} (h : step s = .next t) (k : Nat) : runFor (k + 1) s = runFor k t :=
  core_run_succ Sys2Proof.core h k

/-- What every step relates, and no step and two steps keep, holds along every run. -/
theorem runFor_induction {P : State → State → Prop} (refl : ∀ s, P s s)
    (trans : ∀ s t u, P s t → P t u → P s u) (one : ∀ s t, step s = .next t → P s t) (k : Nat) :
    ∀ s t, runFor k s = .next t → P s t := by
  induction k with
  | zero => intro s t h; cases h; exact refl _
  | succ k ih =>
    intro s t h
    obtain ⟨u, hu⟩ := step_next s
    rw [runFor_succ hu] at h
    exact trans _ _ _ (one _ _ hu) (ih _ _ h)

end Sys2Proof.Machine
end

