-- ==== Sys2Proof/Tests/Slice0.lean ====
section
/-! SUPPORT. Tests, each expected value taken from spec/ (95_test_vectors.md unless a comment names
another file), and the witnesses: concrete inputs that meet the hypotheses of each statement of
Certificates/Slice0/Obligations.lean, clause by clause. -/

namespace Sys2Proof.Tests

open Sys2Proof Sys2Proof.Machine

/-- The state after reset(T, Q) at the default parameters. -/
def mk (t q : List Word) : State := State.initial Config.default t q

/-- The same under OVERFLOW_POLICY = FAULT. -/
def mkFault (t q : List Word) : State := State.initial ⟨64, 64, .fault⟩ t q

/-- The next state of an outcome. -/
def nextState : Host.Outcome State Fault Refusal → Option State
  | .next s => some s
  | .fault _ => none
  | .refused _ => none

/-- The tape, IP and run state after one step. -/
def after (s : State) : Option (Memory × Nat × RunState) :=
  (nextState (step s)).map fun t => (t.tape, t.ip, t.run)

/-- The fault record after one step. -/
def record (s : State) : Option FaultRecord := (nextState (step s)).map fun t => t.fault

/-- The run state after one step. -/
def runAfter (s : State) : Option RunState := (nextState (step s)).map fun t => t.run

def maxWord : Word := 9223372036854775807

def minWord : Word := -9223372036854775808

/-! ## Well-formedness: an ill-formed term for each check (30_encoding.md R61) -/

theorem test_wf_add : Instr.wf 64 (.add maxWord minWord 0) = true ∧
    Instr.wf 64 (.add (maxWord + 1) 0 0) = false ∧ Instr.wf 64 (.add 0 (minWord - 1) 0) = false ∧
    Instr.wf 64 (.add 0 0 (maxWord + 1)) = false := by decide

theorem test_wf_mul : Instr.wf 8 (.mul 127 (-128) 0) = true ∧ Instr.wf 8 (.mul 128 0 0) = false ∧
    Instr.wf 8 (.mul 0 (-129) 0) = false ∧ Instr.wf 8 (.mul 0 0 128) = false := by decide

theorem test_wf_io : Instr.wf 8 (.inp 127) = true ∧ Instr.wf 8 (.inp 128) = false ∧
    Instr.wf 8 (.out (-128)) = true ∧ Instr.wf 8 (.out (-129)) = false ∧ Instr.wf 8 .halt = true := by decide

theorem test_memory_wf : Memory.wf 8 [127, -128] = true ∧ Memory.wf 8 [0, 128] = false := by decide

/-! ## Decoding: words written out from 30_encoding.md R60 and R70 -/

theorem test_decode_add : decode [1, 5, 6, 7] = .ok (.add 5 6 7, []) := rfl

theorem test_decode_mul : decode [2, 5, 6, 7, 99] = .ok (.mul 5 6 7, [99]) := rfl

theorem test_decode_inp : decode [3, -5] = .ok (.inp (-5), []) := rfl

theorem test_decode_out : decode [4, 9] = .ok (.out 9, []) := rfl

theorem test_decode_halt : decode [99, 5, 6] = .ok (.halt, [5, 6]) := rfl

/-- Section 2.1: the words with mode digits, and the words that are INVALID. -/
theorem test_decode_opcode_words :
    [101, 1002, 11103, 104, 199, 9223372036854775801].map decodeOpcode =
      [some .add, some .mul, some .inp, some .out, some .halt, some .add] ∧
    [0, 5, 98, 100, 200, 132, maxWord, -1, -99, -101, minWord].all (fun w => decide (decodeOpcode w = none)) = true := by
  decide

/-- The table's numbering at W = 64: word k stands in bits 64k to 64k + 63. -/
theorem test_table_word_add : decodeTableWord 256
    (1 + 15 * 2 ^ 64 + 16 * 2 ^ 128 + 17 * 2 ^ 192) = some (.add 15 16 17) := by decide

/-- A negative operand is the two's complement of its word (00_scope.md R8). -/
theorem test_table_word_inp : decodeTableWord 128 (3 + (2 ^ 64 - 2) * 2 ^ 64) = some (.inp (-2)) := by decide

/-- The bits above nbits are 0. -/
theorem test_table_word_short : decodeTableWord 64 2 = some (.mul 0 0 0) ∧ decodeTableWord 64 0 = none := by decide

/-! ## One step per instruction -/

/-- Section 2.3: MAX + 1 wraps to MIN. -/
theorem test_add_wraps : after (mk [1, 5, 6, 7, 99, maxWord, 1, 0] []) =
    some ([1, 5, 6, 7, 99, maxWord, 1, minWord], 4, .running) := by decide

/-- Section 2.3: dest is the instruction's own operand word. -/
theorem test_add_own_operand : after (mk [1, 0, 0, 1, 99] []) = some ([1, 2, 0, 1, 99], 4, .running) := by decide

/-- V2: MUL multiplies; dest is a source. -/
theorem test_mul_product : after (mk [2, 3, 0, 3, 99] []) = some ([2, 3, 0, 6, 99], 4, .running) := by decide

/-- Section 2.4: the square of 3037000500 wraps. -/
theorem test_mul_wraps : after (mk [2, 5, 5, 6, 99, 3037000500, 0] []) =
    some ([2, 5, 5, 6, 99, 3037000500, -9223372036709301616], 4, .running) := by decide

/-- Section 2.5: dest is IN's own operand word. -/
theorem test_inp_own_operand : after (mk [3, 1, 99] [42]) = some ([3, 42, 99], 2, .running) := by decide

/-- Section 2.5: dest out of range and the queue exhausted: OOB_ADDRESS wins. -/
theorem test_inp_address_first : record (mk [3, 9, 99] []) = some ⟨.oobAddress, 1, 0, 9⟩ := by decide

/-- Section 2.6: the mode digit is ignored; a negative value. -/
theorem test_out_value : (nextState (step (mk [104, 3, 99, -7] []))).map (fun t => (t.outq, t.ip)) =
    some ([-7], 2) := by decide

/-- Section 2.6: src = N. -/
theorem test_out_bad_source : record (mk [4, 3, 99] []) = some ⟨.oobAddress, 1, 0, 3⟩ := by decide

/-- V5: 199 halts, and IP holds. -/
theorem test_halt_mode_digit : after (mk [199, 1] []) = some ([199, 1], 0, .halted) := by decide

/-- Section 2.7: HALT as the last word fetches nothing beyond it. -/
theorem test_halt_last_word : runAfter { mk [4, 0, 99] [] with ip := 2 } = some .halted := by decide

/-! ## The host's side -/

/-- The next step runs the placed instruction: an ADD of zero operands doubles the word at 0. -/
theorem test_placed_word_runs : after (State.reset.withFetchWord 64 1) = some ([2, 0, 0, 0], 4, .running) := by
  decide

/-- 10_state.md R28, R30: FAULTED is 2, INPUT_EXHAUSTED is 5, slot 0; and OOB_FETCH is 3 with slot 3. -/
theorem test_status : (nextState (step (mk [3, 0, 99] []))).map statusReg = some 0b00010110#8 ∧
    (nextState (step (mk [1, 0, 0] []))).map statusReg = some 0b11001110#8 := by decide

/-- The listing of P2 and its encoding. -/
theorem test_assemble_p2 : assemble [.add (.addr 9) (.addr 10) (.label "w"), .label "w", .out (.addr 9),
    .out (.addr 10), .halt, .word 98, .word 1] = some [1, 9, 10, 4, 4, 9, 4, 10, 99, 98, 1] := by decide

theorem test_assemble_unknown_label : assemble [.out (.label "x")] = none := by decide

/-- 70_reset_and_hazards.md R181: each duty, broken. -/
theorem test_construct_refuses :
    construct ⟨0, 64, .wrap⟩ [] [] = .refused .noWordWidth ∧
    construct Config.default [maxWord + 1] [] = .refused .valueOutOfRange ∧
    construct Config.default [] [minWord - 1] = .refused .valueOutOfRange ∧
    construct ⟨64, 1, .wrap⟩ [0, 0] [] = .refused .tapeTooLong := ⟨rfl, rfl, rfl, rfl⟩

/-! ## Witnesses for the hypotheses of the statements -/

/-- A program with an input, an output and a halt meets the invariant. -/
theorem witness_inv : Inv (mk [3, 0, 4, 0, 99] [7]) :=
  ⟨by decide, by decide, by decide, by decide, by decide, by decide, by decide, by decide, rfl⟩

/-- The empty tape meets the invariant, with IP at N. -/
theorem witness_inv_empty : Inv (mk [] []) :=
  ⟨by decide, by decide, by decide, by decide, by decide, by decide, by decide, by decide, rfl⟩

/-- A FAULTED state meets the invariant: OOB_IP at the end of the tape. -/
theorem witness_inv_faulted : Inv { mk [] [] with run := .faulted, fault := ⟨.oobIp, 0, 0, 0⟩ } :=
  ⟨by decide, by decide, by decide, by decide, by decide, by decide, by decide, by decide,
    rfl, rfl, rfl, rfl⟩

theorem witness_OpcodeIsTruncatedRemainder : opcodeOf 0 = 0 ∧ opcodeOf 199 = 99 ∧ opcodeOf (-199) = -99 ∧
    opcodeOf (-100) = 0 ∧ (0 : Word) ≤ 0 ∧ (-1 : Word) < 0 := by decide

theorem witness_ModeDigitsAreIgnored : (0 : Int) ≤ 0 ∧ (0 : Int) ≤ 99 ∧ (99 : Int) < 100 ∧
    decodeOpcode 99 ≠ none ∧ decodeOpcode 0 = none := by decide

theorem witness_LengthFollowsFromTheOpcode : decode [1, 0, 0, 0] = .ok (.add 0 0 0, []) ∧
    decode [99] = .ok (.halt, []) ∧ decodeOpcode 0 = none := ⟨rfl, rfl, by decide⟩

theorem witness_EncodedBitsDecodeBack : Instr.wf 8 (.add 127 (-128) 0) = true ∧
    Instr.wf 64 (.mul maxWord minWord 0) = true := by decide

theorem witness_DecodedWordsAreTheEncoding : decode [199, 5] = .ok (.halt, [5]) ∧
    decode [1002, 4, 3, 4, 33] = .ok (.mul 4 3 4, [33]) := ⟨rfl, rfl⟩

theorem witness_StepRunsTheDecodedInstruction : (mk [99] []).run = .running ∧
    decode ((mk [99] []).tape.drop (mk [99] []).ip) = .ok (.halt, []) := ⟨rfl, rfl⟩

theorem witness_IpPastTheTapeFaults : (mk [] []).n ≤ (mk [] []).ip ∧ (mk [] []).run = .running ∧
    Inv (mk [] []) := ⟨by decide, rfl, witness_inv_empty⟩

theorem witness_InvalidOpcodeFaultsAtOnce : (mk [7] []).run = .running ∧ (mk [7] []).tape.read 0 = some 7 ∧
    opcodeOf 7 ∉ [1, 2, 3, 4, 99] ∧ opcodeOf (-1) ∉ [1, 2, 3, 4, 99] := by decide

theorem witness_MissingOperandWordFaults :
    ((mk [1, 0, 0] []).tape.read 0 = some 1 ∧ decodeOpcode 1 = some .add ∧ 3 < opcodeLength .add ∧
      (mk [1, 0, 0] []).ip + 3 = (mk [1, 0, 0] []).n) ∧
    ((mk [3] [5]).tape.read 0 = some 3 ∧ decodeOpcode 3 = some .inp ∧ 1 < opcodeLength .inp ∧
      (mk [3] [5]).ip + 1 = (mk [3] [5]).n) := by decide

theorem witness_EndedEngineChangesNothing :
    Ended { mk [99] [] with run := .halted } ∧
    runFor 2 { mk [99] [] with run := .halted } = .next { mk [99] [] with run := .halted } ∧
    runFor 1 { mk [0] [] with run := .faulted } = .next { mk [0] [] with run := .faulted } :=
  ⟨by decide, rfl, rfl⟩

theorem witness_EveryStepEndsInOneOfThreeWays : runAfter (mk [4, 0] []) = some .running ∧
    runAfter (mk [99] []) = some .halted ∧ runAfter (mk [] []) = some .faulted := by decide

/-- The exact sum and the exact product stand at the upper bound of the range. -/
theorem witness_AddStoresTheSum_MulStoresTheProduct :
    (mk [1, 5, 6, 4, 99, maxWord, 0, 1] []).cfg.Ok ∧
    (mk [1, 5, 6, 4, 99, maxWord, 0, 1] []).tape.read 5 = some maxWord ∧
    (mk [1, 5, 6, 4, 99, maxWord, 0, 1] []).tape.read 6 = some 0 ∧
    (mk [1, 5, 6, 4, 99, maxWord, 0, 1] []).tape.read 7 = some 1 ∧
    ValidAddress (mk [1, 5, 6, 4, 99, maxWord, 0, 1] []) 7 ∧
    InRange 64 (maxWord + 0) ∧ InRange 64 (maxWord * 1) := by decide

theorem witness_WrapPolicyStoresTheWrappedResult : (mk [1, 0, 0, 0] []).cfg.policy = .wrap ∧
    (mk [1, 0, 0, 0] []).tape.read 0 = some 1 ∧ ValidAddress (mk [1, 0, 0, 0] []) 3 := by decide

theorem witness_FaultPolicyRaisesOverflow : (mkFault [maxWord, 2] []).cfg.policy = .fault ∧
    (mkFault [maxWord, 2] []).tape.read 0 = some maxWord ∧ (mkFault [maxWord, 2] []).tape.read 1 = some 2 ∧
    ValidAddress (mkFault [maxWord, 2] []) 1 ∧ ¬ InRange 64 (maxWord + 2) ∧ ¬ InRange 64 (maxWord * 2) := by
  decide

/-- An ADD whose sum fits: no overflow; and the step completes. -/
theorem witness_PoliciesAgreeWithoutOverflow : NoOverflow (mk [1, 0, 0, 0] []) ∧
    runAfter (mk [1, 0, 0, 0] []) = some .running := by
  refine ⟨fun i h => ?_, by decide⟩
  cases h
  rintro ⟨x, y, hx, hy, hn⟩
  cases hx
  cases hy
  exact hn (by decide)

theorem witness_WrapPolicyNeverRaisesOverflow : (mk [0] []).cfg.policy = .wrap ∧ (mk [0] []).run = .running ∧
    runAfter (mk [0] []) = some .faulted := by decide

/-- The addresses −1 and N on one side, 0 and N − 1 on the other. -/
theorem witness_ArithmeticAddressFaultsInOrder : ¬ ValidAddress (mk [1, -1, 0, 0, 99] []) (-1) ∧
    ¬ ValidAddress (mk [1, 0, 5, 0, 99] []) 5 ∧ ValidAddress (mk [1, 0, 5, 0, 99] []) 0 ∧
    ValidAddress (mk [1, 0, 0, 100, 99] []) 4 ∧ ¬ ValidAddress (mk [1, 0, 0, 100, 99] []) 100 := by decide

theorem witness_ArithmeticFrame :
    (nextState (exec (.add 0 0 3) (mk [1, 0, 0, 3] []))).map (fun t => t.run) = some .running ∧
    (nextState (exec (.mul 0 0 4) (mk [2, 0, 0, 4] []))).map (fun t => t.run) = some .faulted := by decide

theorem witness_InStoresTheNextInput : ValidAddress (mk [3, 1] [42]) 1 ∧
    (mk [3, 1] [42]).inq[(mk [3, 1] [42]).inCursor]? = some 42 := by decide

theorem witness_InFaultsWhenInputIsExhausted : ValidAddress (mk [3, 0, 99] []) 0 ∧
    (mk [3, 0, 99] []).inCursor = (mk [3, 0, 99] []).l := by decide

theorem witness_InWithBadDestinationFaults : ¬ ValidAddress (mk [3, -2, 99] [1]) (-2) ∧
    ¬ ValidAddress (mk [3, 3, 99] []) 3 := by decide

theorem witness_InFrame :
    (nextState (exec (.inp 1) (mk [3, 1] [42]))).map (fun t => t.run) = some .running ∧
    (nextState (exec (.inp 1) (mk [3, 1] []))).map (fun t => t.run) = some .faulted := by decide

theorem witness_OutAppendsTheWord : (mk [4, 1, 99] []).tape.read 1 = some 1 ∧
    (mk [4, 1, 99] []).tape.read 2 = some 99 := by decide

theorem witness_OutWithBadSourceFaults : ¬ ValidAddress (mk [4, 3, 99] []) 3 ∧
    ¬ ValidAddress (mk [4, -1, 99] []) (-1) := by decide

theorem witness_OutFrame :
    (nextState (exec (.out 0) (mk [4, 0] []))).map (fun t => t.run) = some .running ∧
    (nextState (exec (.out 2) (mk [4, 2] []))).map (fun t => t.run) = some .faulted := by decide

theorem witness_HaltEndsTheRunNormally : (mk [1099] []).run = .running ∧ (mk [1099] []).tape.read 0 = some 1099 ∧
    opcodeOf 1099 = 99 := by decide

theorem witness_RunStateTransitions :
    runAfter { mk [99] [] with run := .halted } = some .halted ∧
    runAfter { mk [99] [] with run := .faulted } = some .faulted ∧
    runAfter (mk [99] []) = some .halted ∧ runAfter (mk [4, 0] []) = some .running ∧
    record (mk [] []) ≠ some (mk [] []).fault := by decide

theorem witness_FaultsArePrecise : (mk [3, 0, 99] []).run = .running ∧
    runAfter (mk [3, 0, 99] []) = some .faulted := by decide

/-- The state of section 2.3 whose ADD overflows under FAULT meets the invariant. -/
theorem witness_inv_overflow : Inv (mkFault [1, 5, 6, 7, 99, maxWord, 1, 0] []) :=
  ⟨by decide, by decide, by decide, by decide, by decide, by decide, by decide, by decide, rfl⟩

/-- MIN is what ARITH_OVERFLOW reports there, and MAX is not. -/
theorem witness_overflowResult : OverflowResult (mkFault [1, 5, 6, 7, 99, maxWord, 1, 0] []) minWord ∧
    ¬ OverflowResult (mkFault [1, 5, 6, 7, 99, maxWord, 1, 0] []) maxWord := by
  refine ⟨⟨5, 6, 7, maxWord, 1, rfl, rfl, by decide, .inl ⟨rfl, by decide, by decide⟩⟩, ?_⟩
  rintro ⟨a, b, d, x, y, hx, hy, _, ⟨hf, _, hr⟩ | ⟨hf, _, _⟩⟩
  · cases hf
    cases hx
    cases hy
    exact absurd hr (by decide)
  · cases hf

/-- Section 2 of 95_test_vectors.md: a step that raises each cause, from states that meet `Inv`. -/
theorem witness_FaultRecordMatchesItsCause :
    record (mk [-1] []) = some ⟨.decodeFailure, 0, 0, -1⟩ ∧ record (mk [] []) = some ⟨.oobIp, 0, 0, 0⟩ ∧
    record (mk [1, 0] []) = some ⟨.oobFetch, 2, 0, 2⟩ ∧
    record (mk [1, 0, 0, 100, 99] []) = some ⟨.oobAddress, 3, 0, 100⟩ ∧
    record (mk [3, 0, 99] []) = some ⟨.inputExhausted, 0, 0, 0⟩ ∧
    record (mkFault [1, 5, 6, 7, 99, maxWord, 1, 0] []) = some ⟨.arithOverflow, 0, 0, minWord⟩ ∧
    Inv (mk [] []) ∧ Inv (mkFault [1, 5, 6, 7, 99, maxWord, 1, 0] []) :=
  ⟨by decide, by decide, by decide, by decide, by decide, by decide, witness_inv_empty, witness_inv_overflow⟩

theorem witness_TapeChangesOnlyAtTheDestination :
    (nextState (step (mk [1, 0, 0, 0] []))).map (fun t => t.tape) ≠ some (mk [1, 0, 0, 0] []).tape ∧
    (nextState (step (mk [4, 0] []))).map (fun t => t.outq) ≠ some (mk [4, 0] []).outq := by decide

theorem witness_IpAdvancesByTheLengthOrHolds : after (mk [4, 0] []) = some ([4, 0], 2, .running) ∧
    after (mk [99] []) = some ([99], 0, .halted) := by decide

/-- An ADD, an IN, an OUT and a HALT that complete, and the slots that their rows name. -/
theorem witness_CompletedStepsFollowTheControlTable :
    fetch (mk [1, 0, 0, 3] []) = .ok (.add 0 0 3) ∧ runAfter (mk [1, 0, 0, 3] []) = some .running ∧
    operandWord (.add 0 0 3) 3 = some 3 ∧ (controlRow (some .add)).aluOp = some .add ∧
    fetch (mk [3, 1] [42]) = .ok (.inp 1) ∧ runAfter (mk [3, 1] [42]) = some .running ∧
    (controlRow (some .inp)).inputPop = true ∧ (controlRow (some .inp)).tapeWrite = some 1 ∧
    operandWord (.inp 1) 1 = some 1 ∧
    fetch (mk [4, 0] []) = .ok (.out 0) ∧ runAfter (mk [4, 0] []) = some .running ∧
    (controlRow (some .out)).outputPush = true ∧ (controlRow (some .out)).tapeWrite = none ∧
    runAfter (mk [99] []) = some .halted :=
  ⟨rfl, by decide, rfl, rfl, rfl, by decide, rfl, rfl, rfl, rfl, by decide, rfl, rfl, by decide⟩

theorem witness_InputIsConsumedOnlyByIn :
    (nextState (step (mk [3, 0] [7]))).map (fun t => t.inCursor) = some 1 ∧ (mk [3, 0] [7]).inCursor = 0 := by
  decide

/-- A run of two steps, for the statements about runs. -/
theorem witness_OutputIsAppendOnly_ConfigurationIsFixed :
    (nextState (runFor 2 (mk [4, 0, 99] []))).map (fun t => (t.outq, t.run)) = some ([4], .halted) := by decide

/-- The written word is 99 after an ADD and an IN, and 0 after a MUL. -/
theorem witness_WrittenOpcodeIsFetchedNext :
    (nextState (exec (.add 5 6 (0 + 4)) (mk [1, 5, 6, 4, 0, 98, 1] []))).map (fun t => (t.tape.read 4, t.run)) =
      some (some 99, .running) ∧
    (nextState (exec (.mul 5 6 (0 + 4)) (mk [2, 5, 6, 4, 9, 0, 1] []))).map (fun t => (t.tape.read 4, t.run)) =
      some (some 0, .running) ∧
    (nextState (exec (.inp (0 + 2)) (mk [3, 2, 0] [99]))).map (fun t => (t.tape.read 2, t.run)) =
      some (some 99, .running) ∧
    (mk [3, 2, 0] [99]).inq[0]? = some 99 ∧ opcodeOf 99 = 99 ∧ decodeOpcode 0 = none := by decide

theorem witness_InvariantHoldsAfterConstruction :
    construct Config.default [99] [7] = .next (mk [99] [7]) := rfl

theorem witness_EveryStepKeepsTheInvariant : Inv (mk [3, 0, 4, 0, 99] [7]) ∧
    runAfter (mk [3, 0, 4, 0, 99] [7]) = some .running := ⟨witness_inv, by decide⟩

theorem witness_IpWidthIsNotObservable : runAfter (mk [1, 0, 0, 0] []) = some .running := by decide

theorem witness_UnreadInputDoesNotMatter : (mk [3, 0, 99] [7]).run = .running ∧
    runAfter (mk [3, 0, 99] [7]) = some .running ∧ record (mk [0] []) = some ⟨.decodeFailure, 0, 0, 0⟩ := by
  decide

theorem witness_ConstructionSetsEveryField :
    (1 ≤ Config.default.w ∧ (∀ v ∈ [maxWord], InRange Config.default.w v) ∧
      (∀ v ∈ [minWord], InRange Config.default.w v) ∧ [maxWord].length ≤ 2 ^ Config.default.aw - 1) ∧
    ¬ InRange Config.default.w (maxWord + 1) := by decide

theorem witness_PlacedTableWordRunsNext : State.reset.cfg.w = 64 ∧ decodeTableWord 64 99 = some .halt := by decide

/-- The three run states; every cause stands in a FAULTED state (`witness_FaultRecordMatchesItsCause`
reaches the six, and 0 stands in the record of the first below). -/
theorem witness_StatusWordLayout :
    ({ mk [0] [] with run := .faulted } : State).run = .faulted ∧
    ({ mk [0] [] with run := .faulted } : State).fault.cause = .none ∧
    runAfter (mk [99] []) = some .halted ∧ (mk [0] []).run = .running := by decide

theorem witness_StatusRegistersLoseNothing : Inv (mk [3, 0, 4, 0, 99] [7]) ∧
    Inv { mk [] [] with run := .faulted, fault := ⟨.oobIp, 0, 0, 0⟩ } := ⟨witness_inv, witness_inv_faulted⟩

theorem witness_ReadBackIsFinal : (mk [99] []).run = .running ∧ runFor 0 (mk [99] []) = .next (mk [99] []) ∧
    Ended { mk [99] [] with run := .halted } ∧
    runFor 1 { mk [99] [] with run := .halted } = .next { mk [99] [] with run := .halted } :=
  ⟨rfl, rfl, by decide, rfl⟩

end Sys2Proof.Tests
end

section
/-! The fixed configuration of a run (10_state.md R31): the parameters, the input queue and the tape
length are one value of the state, every operation keeps it, and so every step and every run does. -/

namespace Sys2Proof.Machine

/-- What 10_state.md R31 keeps fixed during a run: the parameters, the input queue and N. -/
def State.configuration (s : State) : Config × List Word × Nat := (s.cfg, s.inq, s.n)

theorem configuration_eq_iff (s t : State) :
    t.configuration = s.configuration ↔ t.cfg = s.cfg ∧ t.inq = s.inq ∧ t.n = s.n := by
  simp [State.configuration]

@[simp] theorem takeFault_configuration (f : FaultRecord) (s : State) :
    (takeFault f s).configuration = s.configuration := rfl

/-- A write replaces a word of the tape and never makes the tape longer or shorter. -/
@[simp] theorem memWrite_configuration (i : Nat) (v : Word) (s : State) :
    (memWrite i v s).configuration = s.configuration := by
  simp [State.configuration, n_eq]

@[simp] theorem consumeInput_configuration (s : State) :
    (consumeInput s).configuration = s.configuration := rfl

@[simp] theorem outPush_configuration (v : Word) (s : State) :
    (outPush v s).configuration = s.configuration := rfl

@[simp] theorem advance_configuration (len : Nat) (s : State) :
    (advance len s).configuration = s.configuration := rfl

@[simp] theorem enterHalt_configuration (s : State) :
    (enterHalt s).configuration = s.configuration := rfl

theorem arithmetic_configuration {op : AluOp} {a b dest : Word} {s t : State}
    (h : endStep s (arithmetic op a b dest s) = .next t) : t.configuration = s.configuration := by
  rcases arithmetic_cases op a b dest s with
    ⟨_, _, _, _, _, _, e⟩ | ⟨_, _, _, _, e⟩ | ⟨_, _, _, _, _, _, _, e⟩ <;>
  · cases e.symm.trans h
    simp

theorem execInp_configuration {dest : Word} {s t : State} (h : execInp dest s = .next t) :
    t.configuration = s.configuration := by
  rcases execInp_cases dest s with ⟨_, _, _, _, e⟩ | ⟨_, e⟩ | ⟨_, _, e⟩ <;>
  · cases e.symm.trans h
    simp

theorem execOut_configuration {src : Word} {s t : State} (h : execOut src s = .next t) :
    t.configuration = s.configuration := by
  rcases execOut_cases src s with ⟨_, _, _, e⟩ | ⟨_, e⟩ <;>
  · cases e.symm.trans h
    simp

theorem exec_configuration {i : Instr} {s t : State} (h : exec i s = .next t) :
    t.configuration = s.configuration := by
  cases i with
  | add a b dest => exact arithmetic_configuration (op := .add) h
  | mul a b dest => exact arithmetic_configuration (op := .mul) h
  | inp dest => exact execInp_configuration h
  | out src => exact execOut_configuration h
  | halt => cases h; exact enterHalt_configuration s

theorem step_configuration {s t : State} (h : step s = .next t) : t.configuration = s.configuration := by
  rcases step_cases s with ⟨_, e⟩ | ⟨_, i, _, e⟩ | ⟨_, f, _, e⟩
  · cases e.symm.trans h; rfl
  · exact exec_configuration (e.symm.trans h)
  · cases e.symm.trans h; exact takeFault_configuration f s

theorem runFor_configuration {k : Nat} {s t : State} (h : runFor k s = .next t) :
    t.configuration = s.configuration :=
  runFor_induction (P := fun s t => t.configuration = s.configuration) (fun _ => rfl)
    (fun _ _ _ hst htu => htu.trans hst) (fun _ _ => step_configuration) k s t h

/-- Settles O40: every step keeps the configuration, so every run does. -/
theorem configurationIsFixed : Obligations.ConfigurationIsFixed := by
  unfold Obligations.ConfigurationIsFixed
  intro s t k h
  exact (configuration_eq_iff s t).1 (runFor_configuration h)

end Sys2Proof.Machine
end

section
/-! The encoding of 30_encoding.md: a word's opcode alone selects the instruction (R63), the mode digits
are no part of the opcode (R64), and the opcode alone says how many words an instruction takes (R66). -/

namespace Sys2Proof

/-- The rows of R63: a word decodes to an opcode exactly where `op(w)` is that opcode's value. -/
theorem decodeOpcode_eq_some_iff (w : Word) (op : Opcode) :
    decodeOpcode w = some op ↔ opcodeOf w = opcodeValue op := by
  constructor
  · intro h
    unfold decodeOpcode at h
    split_ifs at h <;> cases h <;> assumption
  · intro h
    cases op <;> simp [decodeOpcode, h, opcodeValue]

/-- The last row of R63: INVALID is every value that no opcode has. -/
theorem decodeOpcode_eq_none_iff (w : Word) :
    decodeOpcode w = none ↔ ∀ op, opcodeOf w ≠ opcodeValue op := by
  simp [Option.eq_none_iff_forall_ne_some, decodeOpcode_eq_some_iff]

theorem forall_opcode_iff {P : Opcode → Prop} :
    (∀ op, P op) ↔ P .add ∧ P .mul ∧ P .inp ∧ P .out ∧ P .halt :=
  ⟨fun h => ⟨h _, h _, h _, h _, h _⟩,
    fun ⟨hadd, hmul, hinp, hout, hhalt⟩ op => by cases op <;> assumption⟩

/-- Settles O1: each clause is a row of R63 at one opcode. -/
theorem opcodeDecodesExactlyFive : Obligations.OpcodeDecodesExactlyFive := by
  unfold Obligations.OpcodeDecodesExactlyFive
  intro w
  exact ⟨decodeOpcode_eq_some_iff w .add, decodeOpcode_eq_some_iff w .mul,
    decodeOpcode_eq_some_iff w .inp, decodeOpcode_eq_some_iff w .out,
    decodeOpcode_eq_some_iff w .halt, (decodeOpcode_eq_none_iff w).trans forall_opcode_iff⟩

/-- For words ≥ 0 the truncated remainder is the Euclidean one, which drops multiples of 100. -/
theorem opcodeOf_modeDigits {q r : Int} (hq : 0 ≤ q) (hr : 0 ≤ r) :
    opcodeOf (100 * q + r) = opcodeOf r := by
  have hw : 0 ≤ 100 * q + r := by omega
  unfold opcodeOf trem100
  rw [Int.tmod_eq_emod_of_nonneg hw, Int.tmod_eq_emod_of_nonneg hr, Int.mul_add_emod_self_left]

theorem decodeOpcode_congr {v w : Word} (h : opcodeOf v = opcodeOf w) :
    decodeOpcode v = decodeOpcode w := by
  simp only [decodeOpcode, h]

/-- Of a valid opcode word the decoder uses nothing but its opcode. -/
theorem decode_cons_congr {v w : Word} (h : decodeOpcode v = decodeOpcode w) (hw : decodeOpcode w ≠ none)
    (rest : List Word) : decode (v :: rest) = decode (w :: rest) := by
  obtain ⟨op, hop⟩ := Option.ne_none_iff_exists'.1 hw
  simp only [decode, h, hop]
  cases op <;> rfl

/-- Settles O3: the mode digits leave `op(w)` as it is, and decoding a valid word reads only that. -/
theorem modeDigitsAreIgnored : Obligations.ModeDigitsAreIgnored := by
  unfold Obligations.ModeDigitsAreIgnored
  refine ⟨fun q r rest hq hr _ => ?_, by decide⟩
  have hop : decodeOpcode (100 * q + r) = decodeOpcode r :=
    decodeOpcode_congr (opcodeOf_modeDigits hq hr)
  exact ⟨hop, fun hvalid => decode_cons_congr hop hvalid rest⟩

/-- An opcode word, whatever its mode digits, and the operand words are as many words as R66 gives. -/
theorem length_cons_encode_tail (w0 : Word) (i : Instr) :
    (w0 :: (encode i).tail).length = opcodeLength (instrOpcode i) := by
  cases i <;> rfl

/-- A decoded instruction is its opcode's number of words, and the words after them are left. -/
theorem decode_ok_append {ws : List Word} {i : Instr} {tail : List Word} (h : decode ws = .ok (i, tail)) :
    ∃ taken, ws = taken ++ tail ∧ taken.length = opcodeLength (instrOpcode i) := by
  obtain ⟨w0, _, hws⟩ := decode_ok h
  exact ⟨w0 :: (encode i).tail, hws, length_cons_encode_tail w0 i⟩

theorem decode_ok_opcode {w0 : Word} {rest : List Word} {i : Instr} {tail : List Word}
    (h : decode (w0 :: rest) = .ok (i, tail)) : decodeOpcode w0 = some (instrOpcode i) := by
  obtain ⟨_, hop, hws⟩ := decode_ok h
  cases hws
  exact hop

theorem decode_invalid {w0 : Word} (h : decodeOpcode w0 = none) (rest : List Word) :
    decode (w0 :: rest) = .error (.invalid w0) := by
  simp only [decode, h]

/-- Settles O4: a decode takes its opcode's number of words, and an INVALID word ends it at once. -/
theorem lengthFollowsFromTheOpcode : Obligations.LengthFollowsFromTheOpcode := by
  unfold Obligations.LengthFollowsFromTheOpcode
  refine ⟨⟨rfl, rfl, rfl, rfl, rfl⟩, fun w0 rest => ⟨fun i tail h => ?_, fun h => decode_invalid h rest⟩⟩
  obtain ⟨taken, hws, hlen⟩ := decode_ok_append h
  refine ⟨instrOpcode i, decode_ok_opcode h, ?_, ?_⟩
  · rw [hws, List.length_append, hlen]
  · rw [hws, List.drop_left' hlen]

end Sys2Proof
end

section
/-! The execution cycle of 40_cycle.md: a step of an ended run changes nothing (R81), an invalid opcode
word faults before any operand word matters (R84), and a running step ends in one of three ways (R80). -/

namespace Sys2Proof.Machine

theorem step_of_ended {s : State} (h : Ended s) : step s = .next s := by
  rcases step_cases s with ⟨_, e⟩ | ⟨hr, _⟩ | ⟨hr, _⟩
  · exact e
  · exact absurd hr h
  · exact absurd hr h

/-- Settles O13: a step of an ended run answers the state it was given, so every run does. -/
theorem endedEngineChangesNothing : Obligations.EndedEngineChangesNothing := by
  unfold Obligations.EndedEngineChangesNothing
  intro s t k hend hrun
  refine runFor_induction (P := fun s t => Ended s → t = s) (fun _ _ => rfl) ?_ ?_ k s t hrun hend
  · intro s t u hst htu hs
    cases hst hs
    exact htu hs
  · intro s t hstep hs
    cases (step_of_ended hs).symm.trans hstep
    rfl

/-- The word that IP names is the head of what the decoder is given. -/
theorem drop_ip_of_read {s : State} {w0 : Word} (h : s.tape.read (s.ip : Int) = some w0) :
    s.tape.drop s.ip = w0 :: s.tape.drop (s.ip + 1) := by
  rw [read_natCast] at h
  obtain ⟨hlt, rfl⟩ := List.getElem?_eq_some_iff.1 h
  exact List.drop_eq_getElem_cons hlt

theorem decodeOpcode_eq_none_of_notMem {w : Word} (h : opcodeOf w ∉ [1, 2, 3, 4, 99]) :
    decodeOpcode w = none := by
  refine (decodeOpcode_eq_none_iff w).2 fun op hop => h ?_
  rw [hop]
  cases op <;> decide

theorem fetch_of_decode_error {s : State} {e : DecodeError} (h : decode (s.tape.drop s.ip) = .error e) :
    fetch s = .error (fetchFault s e) := by
  simp only [fetch, h]

theorem step_of_fetch_error {s : State} {f : FaultRecord} (hr : s.run = .running)
    (hf : fetch s = .error f) : step s = .next (takeFault f s) := by
  simp only [step, hr, hf]

/-- Settles O11: the decode ends at the opcode word, and the step is the entry of that fault. -/
theorem invalidOpcodeFaultsAtOnce : Obligations.InvalidOpcodeFaultsAtOnce := by
  unfold Obligations.InvalidOpcodeFaultsAtOnce
  intro s w0 hr hread hop
  have hdecode : decode (s.tape.drop s.ip) = .error (.invalid w0) := by
    rw [drop_ip_of_read hread]
    exact decode_invalid (decodeOpcode_eq_none_of_notMem hop) _
  exact ⟨_, step_of_fetch_error hr (fetch_of_decode_error hdecode), rfl, rfl, rfl, rfl, rfl, rfl⟩

theorem arithmetic_run (op : AluOp) (a b dest : Word) (s : State) :
    ∃ t, endStep s (arithmetic op a b dest s) = .next t ∧ (t.run = s.run ∨ t.run = .faulted) := by
  rcases arithmetic_cases op a b dest s with
    ⟨_, _, _, _, _, _, e⟩ | ⟨_, _, _, _, e⟩ | ⟨_, _, _, _, _, _, _, e⟩
  · exact ⟨_, e, .inl rfl⟩
  · exact ⟨_, e, .inr rfl⟩
  · exact ⟨_, e, .inr rfl⟩

theorem execInp_run (dest : Word) (s : State) :
    ∃ t, execInp dest s = .next t ∧ (t.run = s.run ∨ t.run = .faulted) := by
  rcases execInp_cases dest s with ⟨_, _, _, _, e⟩ | ⟨_, e⟩ | ⟨_, _, e⟩
  · exact ⟨_, e, .inl rfl⟩
  · exact ⟨_, e, .inr rfl⟩
  · exact ⟨_, e, .inr rfl⟩

theorem execOut_run (src : Word) (s : State) :
    ∃ t, execOut src s = .next t ∧ (t.run = s.run ∨ t.run = .faulted) := by
  rcases execOut_cases src s with ⟨_, _, _, e⟩ | ⟨_, e⟩
  · exact ⟨_, e, .inl rfl⟩
  · exact ⟨_, e, .inr rfl⟩

theorem exec_halt (s : State) : exec .halt s = .next (enterHalt s) := rfl

/-- Every instruction but HALT keeps the run state when it completes. -/
theorem exec_run_of_ne_halt {i : Instr} (hi : i ≠ .halt) (s : State) :
    ∃ t, exec i s = .next t ∧ (t.run = s.run ∨ t.run = .faulted) := by
  cases i with
  | add a b dest => exact arithmetic_run .add a b dest s
  | mul a b dest => exact arithmetic_run .mul a b dest s
  | inp dest => exact execInp_run dest s
  | out src => exact execOut_run src s
  | halt => exact absurd rfl hi

/-- Settles O14: HALT halts, any other fetched instruction completes or faults, and a failed fetch faults. -/
theorem everyStepEndsInOneOfThreeWays : Obligations.EveryStepEndsInOneOfThreeWays := by
  unfold Obligations.EveryStepEndsInOneOfThreeWays
  intro s hr
  rcases step_cases s with ⟨hend, _⟩ | ⟨_, i, hf, e⟩ | ⟨_, f, _, e⟩
  · exact absurd hr hend
  · by_cases hi : i = .halt
    · subst hi
      exact ⟨_, e.trans (exec_halt s), .inr (.inl ⟨enterHalt_run s, hf, exec_halt s⟩)⟩
    · obtain ⟨t, ht, hrun | hfault⟩ := exec_run_of_ne_halt hi s
      · exact ⟨t, e.trans ht, .inl ⟨hrun.trans hr, i, hi, hf, ht⟩⟩
      · exact ⟨t, e.trans ht, .inr (.inr hfault)⟩
  · exact ⟨_, e, .inr (.inr (takeFault_run f s))⟩

end Sys2Proof.Machine
end

section
/-! HALT (43_halt.md R140): one opcode word is the whole instruction, so the decoder asks nothing of the
words after it, and its execution replaces the run state alone. -/

namespace Sys2Proof.Machine

theorem decode_halt {w0 : Word} (h : decodeOpcode w0 = some .halt) (rest : List Word) :
    decode (w0 :: rest) = .ok (.halt, rest) := by
  simp only [decode, h]

theorem fetch_of_decode_ok {s : State} {i : Instr} {rest : List Word}
    (h : decode (s.tape.drop s.ip) = .ok (i, rest)) : fetch s = .ok i := by
  simp only [fetch, h]

theorem step_of_fetch_ok {s : State} {i : Instr} (hr : s.run = .running) (hf : fetch s = .ok i) :
    step s = exec i s := by
  simp only [step, hr, hf]

/-- A word with opcode 99 at IP is fetched as HALT, be it the last word of the tape or not. -/
theorem fetch_halt_of_read {s : State} {w0 : Word} (hread : s.tape.read (s.ip : Int) = some w0)
    (hop : opcodeOf w0 = 99) : fetch s = .ok .halt := by
  have hhalt : decodeOpcode w0 = some .halt := (decodeOpcode_eq_some_iff w0 .halt).2 hop
  have hdecode : decode (s.tape.drop s.ip) = .ok (.halt, s.tape.drop (s.ip + 1)) := by
    rw [drop_ip_of_read hread]
    exact decode_halt hhalt _
  exact fetch_of_decode_ok hdecode

/-- Settles O31: HALT's meaning is the entry of HALTED, and the step at its opcode word is that meaning. -/
theorem haltEndsTheRunNormally : Obligations.HaltEndsTheRunNormally := by
  unfold Obligations.HaltEndsTheRunNormally
  refine ⟨exec_halt, fun s w0 hr hread hop => ?_⟩
  calc step s = exec .halt s := step_of_fetch_ok hr (fetch_halt_of_read hread hop)
    _ = .next (enterHalt s) := exec_halt s

end Sys2Proof.Machine
end

section
/-! The meaning of an instruction as a relation: what a completed instruction leaves (`Completes`), which
fault a check raises (`Raises`, in the order of 60_exceptions.md R155), and that `exec` answers the one
or enters the other. The step has the same two ends, a failed fetch being one more fault. -/

namespace Sys2Proof.Machine

/-- The instruction that runs an ALU operation (41_arithmetic.md R103, R104). -/
def AluOp.instr : AluOp → Word → Word → Word → Instr
  | .add => .add
  | .mul => .mul

theorem exec_aluInstr (op : AluOp) (a b dest : Word) (s : State) :
    exec (op.instr a b dest) s = endStep s (arithmetic op a b dest s) := by
  cases op <;> rfl

theorem exists_aluInstr {i : Instr} {a b dest : Word} (h : i = .add a b dest ∨ i = .mul a b dest) :
    ∃ op : AluOp, i = op.instr a b dest := by
  obtain rfl | rfl := h
  · exact ⟨.add, rfl⟩
  · exact ⟨.mul, rfl⟩

/-- `t` is what the instruction leaves when it completes at `s`. -/
inductive Completes (s : State) : Instr → State → Prop
  | alu {a b dest x y : Word} (op : AluOp) (ha : s.tape.read a = some x) (hb : s.tape.read b = some y)
      (hdest : ValidAddress s dest) (hfit : s.cfg.policy = .wrap ∨ InRange s.cfg.w (aluExact op x y)) :
      Completes s (op.instr a b dest)
        (advance 4 (memWrite dest.toNat (wrap s.cfg.w (aluExact op x y)) s))
  | inp {dest v : Word} (hdest : ValidAddress s dest) (hv : s.inq[s.inCursor]? = some v) :
      Completes s (.inp dest) (advance 2 (memWrite dest.toNat v (consumeInput s)))
  | out {src v : Word} (hv : s.tape.read src = some v) : Completes s (.out src) (advance 2 (outPush v s))
  | halt : Completes s .halt (enterHalt s)

/-- `f` is the record of the first check that the instruction fails when it is executed at `s`. -/
inductive Raises (s : State) : Instr → FaultRecord → Prop
  | badA {a b dest : Word} (op : AluOp) (ha : ¬ ValidAddress s a) :
      Raises s (op.instr a b dest) (faultAt s .oobAddress 1 a)
  | badB {a b dest : Word} (op : AluOp) (ha : ValidAddress s a) (hb : ¬ ValidAddress s b) :
      Raises s (op.instr a b dest) (faultAt s .oobAddress 2 b)
  | badDest {a b dest : Word} (op : AluOp) (ha : ValidAddress s a) (hb : ValidAddress s b)
      (hdest : ¬ ValidAddress s dest) : Raises s (op.instr a b dest) (faultAt s .oobAddress 3 dest)
  | overflow {a b dest x y : Word} (op : AluOp) (ha : s.tape.read a = some x) (hb : s.tape.read b = some y)
      (hdest : ValidAddress s dest) (hp : s.cfg.policy = .fault)
      (hfit : ¬ InRange s.cfg.w (aluExact op x y)) :
      Raises s (op.instr a b dest) (faultAt s .arithOverflow 0 (wrap s.cfg.w (aluExact op x y)))
  | inpBadDest {dest : Word} (hdest : ¬ ValidAddress s dest) :
      Raises s (.inp dest) (faultAt s .oobAddress 1 dest)
  | exhausted {dest : Word} (hdest : ValidAddress s dest) (hl : s.l ≤ s.inCursor) :
      Raises s (.inp dest) (faultAt s .inputExhausted 0 (s.inCursor : Int))
  | outBadSrc {src : Word} (hsrc : ¬ ValidAddress s src) :
      Raises s (.out src) (faultAt s .oobAddress 1 src)

/-! The equations of the checks, one per answer. -/

theorem memRead_of_read {s : State} {v : Int} {x : Word} (h : s.tape.read v = some x) (slot : Fin 4) :
    memRead s slot v = .ok x := by
  simp only [memRead, h]

theorem memRead_of_not_valid {s : State} {v : Int} (h : ¬ ValidAddress s v) (slot : Fin 4) :
    memRead s slot v = .error (faultAt s .oobAddress slot v) := by
  simp only [memRead, (read_eq_none_iff s v).2 h]

theorem checkAddress_of_valid {s : State} {v : Int} (h : ValidAddress s v) (slot : Fin 4) :
    checkAddress s slot v = .ok v.toNat := if_pos h

theorem checkAddress_of_not_valid {s : State} {v : Int} (h : ¬ ValidAddress s v) (slot : Fin 4) :
    checkAddress s slot v = .error (faultAt s .oobAddress slot v) := if_neg h

theorem nextInput_of_get {s : State} {v : Word} (h : s.inq[s.inCursor]? = some v) :
    nextInput s = .ok v := by
  simp only [nextInput, h]

theorem nextInput_of_exhausted {s : State} (h : s.l ≤ s.inCursor) :
    nextInput s = .error (faultAt s .inputExhausted 0 (s.inCursor : Int)) := by
  simp only [nextInput, List.getElem?_eq_none_iff.2 h]

theorem aluResult_of_fits {s : State} {op : AluOp} {x y : Word}
    (h : s.cfg.policy = .wrap ∨ InRange s.cfg.w (aluExact op x y)) :
    aluResult s op x y = .ok (wrap s.cfg.w (aluExact op x y)) := by
  rcases aluResult_cases s op x y with ⟨_, e⟩ | ⟨hp, hfit, _⟩
  · exact e
  · rcases h with h | h
    · cases hp.symm.trans h
    · exact absurd h hfit

theorem aluResult_of_overflow {s : State} {op : AluOp} {x y : Word} (hp : s.cfg.policy = .fault)
    (hfit : ¬ InRange s.cfg.w (aluExact op x y)) :
    aluResult s op x y = .error (faultAt s .arithOverflow 0 (wrap s.cfg.w (aluExact op x y))) := by
  rcases aluResult_cases s op x y with ⟨h | h, _⟩ | ⟨_, _, e⟩
  · cases hp.symm.trans h
  · exact absurd h hfit
  · exact e

/-- A completion is what `exec` answers. -/
theorem Completes.exec_eq {s t : State} {i : Instr} (h : Completes s i t) : exec i s = .next t := by
  cases h with
  | alu op ha hb hdest hfit =>
    rw [exec_aluInstr]
    simp only [arithmetic, fetchF4Data, memRead_of_read ha, memRead_of_read hb,
      checkAddress_of_valid hdest, bind, Except.bind, pure, Except.pure, aluResult_of_fits hfit]
    rfl
  | inp hdest hv =>
    simp only [exec, execInp, checkAddress_of_valid hdest, nextInput_of_get hv, bind, Except.bind]
    rfl
  | out hv =>
    simp only [exec, execOut, memRead_of_read hv, bind, Except.bind]
    rfl
  | halt => rfl

/-- A raised fault is the one that `exec` enters. -/
theorem Raises.exec_eq {s : State} {i : Instr} {f : FaultRecord} (h : Raises s i f) :
    exec i s = .next (takeFault f s) := by
  cases h with
  | badA op ha =>
    rw [exec_aluInstr]
    simp only [arithmetic, fetchF4Data, memRead_of_not_valid ha, bind, Except.bind]
    rfl
  | badB op ha hb =>
    obtain ⟨x, hx⟩ := read_of_valid ha
    rw [exec_aluInstr]
    simp only [arithmetic, fetchF4Data, memRead_of_read hx, memRead_of_not_valid hb, bind, Except.bind]
    rfl
  | badDest op ha hb hdest =>
    obtain ⟨x, hx⟩ := read_of_valid ha
    obtain ⟨y, hy⟩ := read_of_valid hb
    rw [exec_aluInstr]
    simp only [arithmetic, fetchF4Data, memRead_of_read hx, memRead_of_read hy,
      checkAddress_of_not_valid hdest, bind, Except.bind]
    rfl
  | overflow op ha hb hdest hp hfit =>
    rw [exec_aluInstr]
    simp only [arithmetic, fetchF4Data, memRead_of_read ha, memRead_of_read hb,
      checkAddress_of_valid hdest, bind, Except.bind, pure, Except.pure, aluResult_of_overflow hp hfit]
    rfl
  | inpBadDest hdest =>
    simp only [exec, execInp, checkAddress_of_not_valid hdest, bind, Except.bind]
    rfl
  | exhausted hdest hl =>
    simp only [exec, execInp, checkAddress_of_valid hdest, nextInput_of_exhausted hl, bind, Except.bind]
    rfl
  | outBadSrc hsrc =>
    simp only [exec, execOut, memRead_of_not_valid hsrc, bind, Except.bind]
    rfl

theorem aluInstr_completes_or_raises (op : AluOp) (a b dest : Word) (s : State) :
    (∃ t, Completes s (op.instr a b dest) t) ∨ (∃ f, Raises s (op.instr a b dest) f) := by
  rcases arithmetic_cases op a b dest s with
    ⟨x, y, ha, hb, hdest, hfit, _⟩ | ⟨slot, v, hv, hslot, _⟩ | ⟨x, y, ha, hb, hdest, hp, hfit, _⟩
  · exact .inl ⟨_, .alu op ha hb hdest hfit⟩
  · rcases hslot with ⟨_, rfl⟩ | ⟨_, rfl, ha⟩ | ⟨_, rfl, ha, hb⟩
    · exact .inr ⟨_, .badA op hv⟩
    · exact .inr ⟨_, .badB op ha hv⟩
    · exact .inr ⟨_, .badDest op ha hb hv⟩
  · exact .inr ⟨_, .overflow op ha hb hdest hp hfit⟩

/-- Every instruction completes, or a check of it raises a fault. -/
theorem completes_or_raises (i : Instr) (s : State) : (∃ t, Completes s i t) ∨ (∃ f, Raises s i f) := by
  cases i with
  | add a b dest => exact aluInstr_completes_or_raises .add a b dest s
  | mul a b dest => exact aluInstr_completes_or_raises .mul a b dest s
  | inp dest =>
    rcases execInp_cases dest s with ⟨v, hdest, hv, _, _⟩ | ⟨hdest, _⟩ | ⟨hdest, hl, _⟩
    · exact .inl ⟨_, .inp hdest hv⟩
    · exact .inr ⟨_, .inpBadDest hdest⟩
    · exact .inr ⟨_, .exhausted hdest hl⟩
  | out src =>
    rcases execOut_cases src s with ⟨v, _, hv, _⟩ | ⟨hsrc, _⟩
    · exact .inl ⟨_, .out hv⟩
    · exact .inr ⟨_, .outBadSrc hsrc⟩
  | halt => exact .inl ⟨_, .halt⟩

/-- What `exec` answers is a completion or the entry of a raised fault, and nothing else. -/
theorem exec_next_iff {i : Instr} {s t : State} :
    exec i s = .next t ↔ Completes s i t ∨ ∃ f, Raises s i f ∧ t = takeFault f s := by
  constructor
  · intro h
    rcases completes_or_raises i s with ⟨u, hu⟩ | ⟨f, hf⟩
    · cases hu.exec_eq.symm.trans h
      exact .inl hu
    · cases hf.exec_eq.symm.trans h
      exact .inr ⟨f, hf, rfl⟩
  · rintro (h | ⟨f, hf, rfl⟩)
    · exact h.exec_eq
    · exact hf.exec_eq

/-- `f` is the record of the first check that the step at `s` fails: one of the fetch or one of the
fetched instruction (60_exceptions.md R155). -/
inductive StepRaises (s : State) : FaultRecord → Prop
  | fetch {f : FaultRecord} (hf : Machine.fetch s = .error f) : StepRaises s f
  | exec {i : Instr} {f : FaultRecord} (hi : Machine.fetch s = .ok i) (hf : Raises s i f) : StepRaises s f

theorem StepRaises.step_eq {s : State} {f : FaultRecord} (hr : s.run = .running) (h : StepRaises s f) :
    step s = .next (takeFault f s) := by
  cases h with
  | fetch hf => exact step_of_fetch_error hr hf
  | exec hi hf => rw [step_of_fetch_ok hr hi, hf.exec_eq]

/-- A step of a running engine completes the fetched instruction or enters a raised fault. -/
theorem running_step_cases {s t : State} (hr : s.run = .running) (h : step s = .next t) :
    (∃ i, fetch s = .ok i ∧ Completes s i t) ∨ (∃ f, StepRaises s f ∧ t = takeFault f s) := by
  rcases step_cases s with ⟨hend, _⟩ | ⟨_, i, hi, e⟩ | ⟨_, f, hf, e⟩
  · exact absurd hr hend
  · rcases exec_next_iff.1 (e.symm.trans h) with hc | ⟨f, hf, rfl⟩
    · exact .inl ⟨i, hi, hc⟩
    · exact .inr ⟨f, .exec hi hf, rfl⟩
  · cases e.symm.trans h
    exact .inr ⟨f, .fetch hf, rfl⟩

/-- A step of an ended engine answers the state it was given. -/
theorem ended_step_eq {s t : State} (hend : Ended s) (h : step s = .next t) : t = s := by
  cases (step_of_ended hend).symm.trans h
  rfl

end Sys2Proof.Machine
end

section
/-! What holds of every completion, and what the fetch says of the words at IP: the facts that the
statements about steps use. -/

namespace Sys2Proof.Machine

theorem exec_keeps_fixed {s t : State} {i : Instr} (h : exec i s = .next t) :
    t.cfg = s.cfg ∧ t.inq = s.inq ∧ t.n = s.n :=
  (configuration_eq_iff s t).1 (exec_configuration h)

theorem step_keeps_n {s t : State} (h : step s = .next t) : t.n = s.n :=
  ((configuration_eq_iff s t).1 (step_configuration h)).2.2

theorem Completes.fault_eq {s t : State} {i : Instr} (h : Completes s i t) : t.fault = s.fault := by
  cases h <;> rfl

theorem Completes.run_eq {s t : State} {i : Instr} (h : Completes s i t) (hi : i ≠ .halt) :
    t.run = s.run := by
  cases h with
  | halt => exact absurd rfl hi
  | _ => rfl

theorem completes_halt_eq {s t : State} (h : Completes s .halt t) : t = enterHalt s := by
  cases (exec_halt s).symm.trans h.exec_eq
  rfl

theorem Completes.run_ne_faulted {s t : State} {i : Instr} (h : Completes s i t)
    (hr : s.run = .running) : t.run ≠ .faulted := by
  by_cases hi : i = .halt
  · subst hi
    simp [completes_halt_eq h]
  · simp [h.run_eq hi, hr]

theorem Completes.run_halted_iff {s t : State} {i : Instr} (h : Completes s i t)
    (hr : s.run = .running) : t.run = .halted ↔ i = .halt := by
  by_cases hi : i = .halt
  · subst hi
    simp [completes_halt_eq h]
  · simp [h.run_eq hi, hr, hi]

/-- HALT alone leaves IP where it is (40_cycle.md R88). -/
theorem Completes.ip_eq {s t : State} {i : Instr} (h : Completes s i t) :
    t.ip = s.ip + if i = .halt then 0 else instrLength i := by
  cases h with
  | alu op => cases op <;> rfl
  | _ => rfl

/-- A completion that goes on running is no HALT. -/
theorem Completes.ne_halt_of_running {s t : State} {i : Instr} (h : Completes s i t)
    (ht : t.run = .running) : i ≠ .halt := by
  rintro rfl
  simp [completes_halt_eq h] at ht

theorem two_le_instrLength {i : Instr} (hi : i ≠ .halt) : 2 ≤ instrLength i := by
  cases i with
  | halt => exact absurd rfl hi
  | _ => simp [instrLength, instrOpcode, opcodeLength]

/-- Every record holds the IP at which the step began (60_exceptions.md R150). -/
theorem StepRaises.ip_eq {s : State} {f : FaultRecord} (h : StepRaises s f) : f.ip = s.ip := by
  cases h with
  | fetch hf =>
    rcases fetch_cases s with ⟨_, _, _, e⟩ | ⟨e, _, he⟩
    · cases e.symm.trans hf
    · cases he.symm.trans hf
      cases e <;> rfl
  | exec _ hf => cases hf <;> rfl

/-- A step that ends in FAULTED entered a raised fault. -/
theorem step_faulted {s t : State} (hr : s.run = .running) (h : step s = .next t)
    (ht : t.run = .faulted) : ∃ f, StepRaises s f ∧ t = takeFault f s := by
  rcases running_step_cases hr h with ⟨i, _, hc⟩ | hf
  · exact absurd ht (hc.run_ne_faulted hr)
  · exact hf

/-- A step that ends in another run state than FAULTED completed the fetched instruction. -/
theorem step_completes {s t : State} (hr : s.run = .running) (h : step s = .next t)
    (ht : t.run ≠ .faulted) : ∃ i, fetch s = .ok i ∧ Completes s i t := by
  rcases running_step_cases hr h with hc | ⟨f, _, rfl⟩
  · exact hc
  · exact absurd (takeFault_run f s) ht

/-- The k-th word from IP on. -/
theorem read_ip_add (s : State) (k : Nat) :
    s.tape.read ((s.ip + k : Nat) : Int) = (s.tape.drop s.ip)[k]? := by
  rw [read_natCast, List.getElem?_drop]

theorem decode_of_fetch_ok {s : State} {i : Instr} (h : fetch s = .ok i) :
    ∃ rest, decode (s.tape.drop s.ip) = .ok (i, rest) := by
  rcases fetch_cases s with ⟨j, rest, hd, e⟩ | ⟨_, _, e⟩
  · cases e.symm.trans h
    exact ⟨rest, hd⟩
  · cases e.symm.trans h

theorem decode_of_fetch_error {s : State} {f : FaultRecord} (h : fetch s = .error f) :
    ∃ e, decode (s.tape.drop s.ip) = .error e ∧ f = fetchFault s e := by
  rcases fetch_cases s with ⟨_, _, _, e⟩ | ⟨e, hd, he⟩
  · cases e.symm.trans h
  · cases he.symm.trans h
    exact ⟨e, hd, rfl⟩

/-- All words of a fetched instruction stand on the tape. -/
theorem fetch_ok_fits {s : State} {i : Instr} (h : fetch s = .ok i) : s.ip + instrLength i ≤ s.n := by
  obtain ⟨rest, hd⟩ := decode_of_fetch_ok h
  obtain ⟨taken, hws, hlen⟩ := decode_ok_append hd
  have hpos : 0 < opcodeLength (instrOpcode i) := by cases i <;> exact Nat.succ_pos _
  have hlength := congrArg List.length hws
  rw [List.length_drop, List.length_append, hlen, ← n_eq] at hlength
  unfold instrLength
  omega

/-- The operand words of a fetched instruction are the words after IP. -/
theorem read_operandWord {s : State} {i : Instr} (h : fetch s = .ok i) {k : Nat} {v : Word}
    (hv : operandWord i (k + 1) = some v) : s.tape.read ((s.ip + (k + 1) : Nat) : Int) = some v := by
  obtain ⟨rest, hd⟩ := decode_of_fetch_ok h
  obtain ⟨w0, _, hws⟩ := decode_ok hd
  have htail : (encode i).tail[k]? = some v := by rw [List.getElem?_tail]; exact hv
  rw [read_ip_add, hws, List.getElem?_cons_succ,
    List.getElem?_append_left (List.getElem?_eq_some_iff.1 htail).1, htail]

end Sys2Proof.Machine
end

section
/-! The fault record (60_exceptions.md R150): under the invariant every raised fault is one that the cause
table allows. -/

namespace Sys2Proof.Machine

/-- OOB_ADDRESS reports an operand word of the fetched instruction that is no valid address. -/
theorem legal_oobAddress {s : State} {i : Instr} (hi : fetch s = .ok i) {slot : Fin 4} (k : Nat)
    (hslot : slot.val = k + 1) {v : Word} (hv : operandWord i (k + 1) = some v)
    (hbad : ¬ ValidAddress s v) : FaultRecordLegal (takeFault (faultAt s .oobAddress slot v) s) := by
  refine ⟨rfl, ?_, hbad, ?_⟩
  · rintro rfl
    cases hslot
  · have hread := read_operandWord hi hv
    rw [← hslot] at hread
    exact hread

theorem operandWords_aluInstr (op : AluOp) (a b dest : Word) :
    operandWord (op.instr a b dest) 1 = some a ∧ operandWord (op.instr a b dest) 2 = some b ∧
      operandWord (op.instr a b dest) 3 = some dest := by
  cases op <;> exact ⟨rfl, rfl, rfl⟩

theorem overflowResult_of_fetch {s : State} {op : AluOp} {a b dest x y : Word}
    (hi : fetch s = .ok (op.instr a b dest)) (ha : s.tape.read a = some x) (hb : s.tape.read b = some y)
    (hdest : ValidAddress s dest) (hfit : ¬ InRange s.cfg.w (aluExact op x y)) :
    OverflowResult s (wrap s.cfg.w (aluExact op x y)) := by
  refine ⟨a, b, dest, x, y, ha, hb, hdest, ?_⟩
  cases op with
  | add => exact .inl ⟨hi, hfit, rfl⟩
  | mul => exact .inr ⟨hi, hfit, rfl⟩

/-- A fault of a fetched instruction. -/
theorem Raises.legal {s : State} {i : Instr} {f : FaultRecord} (hcursor : s.inCursor ≤ s.l)
    (hi : fetch s = .ok i) (h : Raises s i f) : FaultRecordLegal (takeFault f s) := by
  cases h with
  | badA op ha => exact legal_oobAddress hi 0 rfl (operandWords_aluInstr op _ _ _).1 ha
  | badB op _ hb => exact legal_oobAddress hi 1 rfl (operandWords_aluInstr op _ _ _).2.1 hb
  | badDest op _ _ hdest => exact legal_oobAddress hi 2 rfl (operandWords_aluInstr op _ _ _).2.2 hdest
  | overflow op ha hb hdest hp hfit =>
    exact ⟨rfl, hp, rfl, overflowResult_of_fetch (s := takeFault _ s) hi ha hb hdest hfit⟩
  | inpBadDest hdest => exact legal_oobAddress hi 0 rfl rfl hdest
  | exhausted _ hl => exact ⟨rfl, rfl, rfl, le_antisymm hcursor hl⟩
  | outBadSrc hsrc => exact legal_oobAddress hi 0 rfl rfl hsrc

/-- A fault of the fetch. -/
theorem fetchFault_legal {s : State} {e : DecodeError} (hip : s.ip ≤ s.n)
    (h : decode (s.tape.drop s.ip) = .error e) : FaultRecordLegal (takeFault (fetchFault s e) s) := by
  have hlength : s.n - s.ip = (s.tape.drop s.ip).length := (List.length_drop ..).symm
  rcases decode_error h with ⟨hws, rfl⟩ | ⟨w0, ws, hws, hop, rfl⟩ | ⟨w0, ws, op, k, hws, hop, rfl, hk, _⟩
  · rw [hws, List.length_nil] at hlength
    exact ⟨rfl, rfl, rfl, le_antisymm hip (Nat.le_of_sub_eq_zero hlength)⟩
  · have hread : s.tape.read (s.ip : Int) = some w0 := by
      have hhead := read_ip_add s 0
      rwa [hws] at hhead
    exact ⟨rfl, rfl, hread, hop⟩
  · rw [hws, List.length_cons, ← hk] at hlength
    refine ⟨rfl, ?_, rfl, ?_⟩
    · rintro rfl
      cases hk
    · show s.ip + k.val = s.n
      omega

theorem StepRaises.legal {s : State} {f : FaultRecord} (hs : Inv s) (h : StepRaises s f) :
    FaultRecordLegal (takeFault f s) := by
  cases h with
  | fetch hf =>
    obtain ⟨e, hd, rfl⟩ := decode_of_fetch_error hf
    exact fetchFault_legal hs.ipOnTape hd
  | exec hi hf => exact hf.legal hs.cursorInQueue hi

/-- Settles O34: the step entered a raised fault, and every raised fault is legal. -/
theorem faultRecordMatchesItsCause : Obligations.FaultRecordMatchesItsCause := by
  unfold Obligations.FaultRecordMatchesItsCause
  intro s t hs hr h ht
  obtain ⟨f, hf, rfl⟩ := step_faulted hr h ht
  exact hf.legal hs

end Sys2Proof.Machine
end

section
/-! The invariant (10_state.md sections 1 to 7): a completion keeps it field by field, a fault entry
changes only the run state and the record, and a construction establishes it. -/

namespace Sys2Proof.Machine

theorem faultOk_iff_legal {s : State} (h : s.run = .faulted) : FaultOk s ↔ FaultRecordLegal s := by
  simp only [FaultOk, h]

theorem faultOk_iff_zero {s : State} (h : s.run ≠ .faulted) : FaultOk s ↔ s.fault = FaultRecord.zero := by
  unfold FaultOk
  split
  · exact Iff.rfl
  · exact Iff.rfl
  · exact absurd ‹s.run = .faulted› h

theorem wf_iff (w : Nat) (ws : List Word) : Memory.wf w ws = true ↔ ∀ v ∈ ws, InRange w v := by
  simp only [Memory.wf, List.all_eq_true, decide_eq_true_eq]

theorem inRange_of_getElem? {w : Nat} {q : List Word} (hq : Memory.wf w q = true) {k : Nat} {v : Word}
    (h : q[k]? = some v) : InRange w v :=
  (wf_iff w q).1 hq v (List.mem_of_getElem? h)

theorem Completes.tapeWords {s t : State} {i : Instr} (hs : Inv s) (h : Completes s i t) :
    t.tape.wf s.cfg.w = true := by
  cases h with
  | alu op _ _ _ _ => exact wf_write hs.tapeWords (wrap_inRange hs.configOk _) _
  | inp _ hv => exact wf_write hs.tapeWords (inRange_of_getElem? hs.inputWords hv) _
  | out _ => exact hs.tapeWords
  | halt => exact hs.tapeWords

theorem Completes.outputWords {s t : State} {i : Instr} (hs : Inv s) (h : Completes s i t) :
    Memory.wf s.cfg.w t.outq = true := by
  cases h with
  | @out _ v hv =>
    have hword : Memory.wf s.cfg.w [v] = true :=
      (wf_iff _ _).2 (List.forall_mem_singleton.2 (inRange_of_read hs.tapeWords hv))
    exact wf_append.2 ⟨hs.outputWords, hword⟩
  | _ => exact hs.outputWords

theorem Completes.ipOnTape {s t : State} {i : Instr} (hi : fetch s = .ok i) (h : Completes s i t) :
    t.ip ≤ s.n := by
  have hfits := fetch_ok_fits hi
  rw [h.ip_eq]
  split <;> omega

theorem Completes.cursorInQueue {s t : State} {i : Instr} (hs : Inv s) (h : Completes s i t) :
    t.inCursor ≤ s.l := by
  cases h with
  | inp _ hv => exact (List.getElem?_eq_some_iff.1 hv).1
  | _ => exact hs.cursorInQueue

/-- The inputs read and the outputs written grow by one together at most, and IP then by two. -/
theorem Completes.ioBound {s t : State} {i : Instr} (hs : Inv s) (h : Completes s i t) :
    2 * (t.inCursor + t.outCursor) ≤ t.ip := by
  have hio := hs.ioBound
  cases h <;> simp [outCursor_eq] at hio ⊢ <;> omega

/-- A completed instruction keeps the invariant. -/
theorem Completes.inv {s t : State} {i : Instr} (hs : Inv s) (hr : s.run = .running)
    (hi : fetch s = .ok i) (h : Completes s i t) : Inv t := by
  obtain ⟨hcfg, hinq, hn⟩ := exec_keeps_fixed h.exec_eq
  have hzero : s.fault = FaultRecord.zero := (faultOk_iff_zero (by simp [hr])).1 hs.faultOk
  exact {
    configOk := hcfg ▸ hs.configOk
    tapeWords := hcfg ▸ h.tapeWords hs
    inputWords := by rw [hcfg, hinq]; exact hs.inputWords
    outputWords := hcfg ▸ h.outputWords hs
    tapeFits := by rw [hcfg, hn]; exact hs.tapeFits
    ipOnTape := hn ▸ h.ipOnTape hi
    cursorInQueue := by rw [l_eq, hinq]; exact h.cursorInQueue hs
    ioBound := h.ioBound hs
    faultOk := (faultOk_iff_zero (h.run_ne_faulted hr)).2 (h.fault_eq.trans hzero) }

/-- The entry of a legal fault keeps the invariant. -/
theorem Inv.takeFault {s : State} {f : FaultRecord} (hs : Inv s)
    (hf : FaultRecordLegal (takeFault f s)) : Inv (takeFault f s) :=
  ⟨hs.configOk, hs.tapeWords, hs.inputWords, hs.outputWords, hs.tapeFits, hs.ipOnTape,
    hs.cursorInQueue, hs.ioBound, (faultOk_iff_legal (takeFault_run f s)).2 hf⟩

/-- Settles O46: a running step completes an instruction or enters a legal fault; an ended engine stays. -/
theorem everyStepKeepsTheInvariant : Obligations.EveryStepKeepsTheInvariant := by
  unfold Obligations.EveryStepKeepsTheInvariant
  intro s t hs h
  by_cases hr : s.run = .running
  · rcases running_step_cases hr h with ⟨i, hi, hc⟩ | ⟨f, hf, rfl⟩
    · exact hc.inv hs hr hi
    · exact hs.takeFault (hf.legal hs)
  · rw [ended_step_eq hr h]
    exact hs

/-- The host's duties at construction (70_reset_and_hazards.md R181), and a word of one bit or more. -/
def DutiesMet (c : Config) (t : Memory) (q : List Word) : Prop :=
  1 ≤ c.w ∧ (∀ v ∈ t, InRange c.w v) ∧ (∀ v ∈ q, InRange c.w v) ∧ t.length ≤ 2 ^ c.aw - 1

theorem construct_of_dutiesMet {c : Config} {t : Memory} {q : List Word} (h : DutiesMet c t q) :
    construct c t q = .next (State.initial c t q) := by
  obtain ⟨hw, ht, hq, hfits⟩ := h
  have hwords : t.wf c.w = true ∧ Memory.wf c.w q = true := ⟨(wf_iff c.w t).2 ht, (wf_iff c.w q).2 hq⟩
  simp only [construct, Config.Ok, hw, hwords, hfits, not_true_eq_false, and_self, if_false]

theorem construct_of_not_dutiesMet {c : Config} {t : Memory} {q : List Word} (h : ¬ DutiesMet c t q) :
    ∃ r, construct c t q = .refused r := by
  unfold construct
  split
  · exact ⟨_, rfl⟩
  split
  · exact ⟨_, rfl⟩
  split
  · exact ⟨_, rfl⟩
  next hw hwords hfits =>
    obtain ⟨ht, hq⟩ := not_not.1 hwords
    exact absurd ⟨not_not.1 hw, (wf_iff c.w t).1 ht, (wf_iff c.w q).1 hq, not_not.1 hfits⟩ h

/-- Settles O50: the duties decide between the initial state and a refusal. -/
theorem constructionSetsEveryField : Obligations.ConstructionSetsEveryField := by
  unfold Obligations.ConstructionSetsEveryField
  intro c t q
  constructor
  · intro hduties
    exact ⟨_, construct_of_dutiesMet hduties, rfl, rfl, rfl, rfl, rfl, rfl, rfl, rfl⟩
  · intro hduties
    exact construct_of_not_dutiesMet hduties

theorem initial_inv {c : Config} {t : Memory} {q : List Word} (h : DutiesMet c t q) :
    Inv (State.initial c t q) := by
  obtain ⟨hw, ht, hq, hfits⟩ := h
  exact ⟨hw, (wf_iff c.w t).2 ht, (wf_iff c.w q).2 hq, rfl, hfits, Nat.zero_le _, Nat.zero_le _, le_rfl, rfl⟩

/-- Settles O45: a construction that answers a state answers the initial one, its duties met. -/
theorem invariantHoldsAfterConstruction : Obligations.InvariantHoldsAfterConstruction := by
  unfold Obligations.InvariantHoldsAfterConstruction
  intro c t q s h
  by_cases hduties : DutiesMet c t q
  · cases (construct_of_dutiesMet hduties).symm.trans h
    exact initial_inv hduties
  · obtain ⟨r, hr⟩ := construct_of_not_dutiesMet hduties
    cases hr.symm.trans h

/-- Settles O44: reset is the construction with the empty tape and the empty queue. -/
theorem invariantHoldsAtReset : Obligations.InvariantHoldsAtReset := by
  unfold Obligations.InvariantHoldsAtReset
  exact initial_inv ⟨by decide, List.forall_mem_nil _, List.forall_mem_nil _, Nat.zero_le _⟩

end Sys2Proof.Machine
end

section
/-! Words modulo 2^W (00_scope.md R8), the ALU's result (41_arithmetic.md R101), and the opcode as a
truncated remainder (30_encoding.md R62). -/

namespace Sys2Proof

/-- `wrap` depends on its argument modulo 2^W alone. -/
theorem wrap_congr {w : Nat} {u v : Int} (h : u ≡ v [ZMOD modulus w]) : wrap w u = wrap w v := by
  unfold wrap
  rw [show u % modulus w = v % modulus w from h]

theorem modulus_dvd_wrap_sub (w : Nat) (v : Int) : modulus w ∣ wrap w v - v := by
  have hemod : modulus w ∣ v % modulus w - v := Int.modEq_iff_dvd.1 (Int.mod_modEq v (modulus w)).symm
  unfold wrap
  split
  · exact hemod
  · rw [sub_right_comm]
    exact dvd_sub_self_right.2 hemod

/-- The only W-bit word congruent to `v` modulo 2^W. -/
theorem eq_wrap_of_dvd {w : Nat} (h : 1 ≤ w) {r v : Int} (hr : InRange w r) (hdvd : modulus w ∣ r - v) :
    r = wrap w v :=
  calc r = wrap w r := (wrap_of_inRange h hr).symm
    _ = wrap w v := wrap_congr (Int.modEq_iff_dvd.2 hdvd).symm

/-- Settles O17: the result is the wrapped exact result, which is the one congruent word. -/
theorem aluWrapsTheExactResult : Obligations.AluWrapsTheExactResult := by
  unfold Obligations.AluWrapsTheExactResult
  intro w op x y hw
  exact ⟨decide_eq_true_iff, wrap_inRange hw _, modulus_dvd_wrap_sub w _,
    fun r hr hdvd => eq_wrap_of_dvd hw hr hdvd, fun hfit => wrap_of_inRange hw hfit, rfl, rfl⟩

/-- Truncated division by 100: the quotient has the sign of the word. -/
theorem exists_quotient (w : Word) :
    ∃ q : Int, w = 100 * q + opcodeOf w ∧ (0 ≤ w → 0 ≤ q) ∧ (w ≤ 0 → q ≤ 0) := by
  refine ⟨Int.tdiv w 100, (Int.mul_tdiv_add_tmod w 100).symm, fun h => Int.tdiv_nonneg h (by decide),
    fun h => ?_⟩
  have hneg : 0 ≤ Int.tdiv (-w) 100 := Int.tdiv_nonneg (neg_nonneg.2 h) (by decide)
  rwa [Int.neg_tdiv, neg_nonneg] at hneg

theorem opcodeOf_of_nonneg {w : Word} (h : 0 ≤ w) : 0 ≤ opcodeOf w ∧ opcodeOf w ≤ 99 :=
  ⟨Int.tmod_nonneg 100 h, Int.le_of_lt_add_one (Int.tmod_lt_of_pos w (by decide))⟩

theorem opcodeOf_neg (w : Word) : opcodeOf (-w) = -opcodeOf w := Int.neg_tmod w 100

theorem opcodeOf_of_nonpos {w : Word} (h : w ≤ 0) : -99 ≤ opcodeOf w ∧ opcodeOf w ≤ 0 := by
  obtain ⟨hlow, hhigh⟩ := opcodeOf_of_nonneg (neg_nonneg.2 h)
  rw [opcodeOf_neg] at hlow hhigh
  exact ⟨neg_le.1 hhigh, neg_nonneg.1 hlow⟩

theorem opcodeValue_pos (op : Opcode) : 0 < opcodeValue op := by
  cases op <;> decide

/-- Every word that decodes is positive (decision D3). -/
theorem pos_of_decodeOpcode {w : Word} {op : Opcode} (h : decodeOpcode w = some op) : 0 < w := by
  by_contra hw
  have hop := (opcodeOf_of_nonpos (not_lt.1 hw)).2
  rw [(decodeOpcode_eq_some_iff w op).1 h] at hop
  exact absurd (opcodeValue_pos op) (not_lt.2 hop)

/-- Settles O2: the truncated remainder has the sign of the word, and every opcode is positive. -/
theorem opcodeIsTruncatedRemainder : Obligations.OpcodeIsTruncatedRemainder := by
  unfold Obligations.OpcodeIsTruncatedRemainder
  intro w
  refine ⟨exists_quotient w, opcodeOf_of_nonneg, fun h => opcodeOf_of_nonpos h.le, fun h => ?_⟩
  exact Option.eq_none_iff_forall_ne_some.2 fun op hop => absurd (pos_of_decodeOpcode hop) (not_lt.2 h)

/-- Settles O6: the quotient of the opcode word, which is positive, is its mode digits. -/
theorem decodedWordsAreTheEncoding : Obligations.DecodedWordsAreTheEncoding := by
  unfold Obligations.DecodedWordsAreTheEncoding
  intro w0 rest i tail h
  obtain ⟨w0', hop, hws⟩ := decode_ok h
  obtain ⟨rfl, rfl⟩ := List.cons.inj hws
  obtain ⟨q, hq, hsign, _⟩ := exists_quotient w0
  rw [(decodeOpcode_eq_some_iff w0 _).1 hop] at hq
  exact ⟨q, hsign (pos_of_decodeOpcode hop).le, hq, rfl⟩

/-- Settles O7: each word is decoded by evaluation. -/
theorem specWordsDecode : Obligations.SpecWordsDecode := by
  unfold Obligations.SpecWordsDecode
  exact ⟨rfl, rfl, rfl, rfl, rfl, rfl, rfl, rfl⟩

end Sys2Proof
end

section
/-! Instructions as bits (log 2): reading the words back from the number they were packed into, and the
decoder on an instruction's own words with anything after them. -/

namespace Sys2Proof

theorem modulus_pos (w : Nat) : 0 < modulus w := by
  unfold modulus
  exact_mod_cast Nat.two_pow_pos w

/-- A word's two's complement digit, as an integer. -/
theorem natCast_digit (w : Nat) (v : Word) : (((v % modulus w).toNat : Nat) : Int) = v % modulus w :=
  Int.toNat_of_nonneg (Int.emod_nonneg v (modulus_pos w).ne')

theorem digit_lt (w : Nat) (v : Word) : (v % modulus w).toNat < 2 ^ w := by
  have hlt := Int.emod_lt_of_pos v (modulus_pos w)
  rw [← natCast_digit, modulus] at hlt
  exact_mod_cast hlt

theorem wordOfBits_cons_zero {w : Nat} (hw : 1 ≤ w) {v : Word} (hv : InRange w v) (ws : List Word) :
    wordOfBits w (bitsOfWords w (v :: ws)) 0 = v := by
  have hmod : ((bitsOfWords w (v :: ws) : Nat) : Int) ≡ v [ZMOD modulus w] := by
    rw [bitsOfWords, Nat.cast_add, Nat.cast_mul, natCast_digit, Int.ModEq]
    show (v % modulus w + modulus w * _) % modulus w = _
    rw [Int.add_mul_emod_self_left, Int.emod_emod]
  unfold wordOfBits
  rw [Nat.mul_zero, pow_zero, Nat.div_one, wrap_congr hmod, wrap_of_inRange hw hv]

theorem wordOfBits_cons_succ (w : Nat) (v : Word) (ws : List Word) (k : Nat) :
    wordOfBits w (bitsOfWords w (v :: ws)) (k + 1) = wordOfBits w (bitsOfWords w ws) k := by
  have hdiv : bitsOfWords w (v :: ws) / 2 ^ w = bitsOfWords w ws := by
    rw [bitsOfWords, Nat.add_mul_div_left _ _ (Nat.two_pow_pos w), Nat.div_eq_of_lt (digit_lt w v),
      Nat.zero_add]
  unfold wordOfBits
  rw [Nat.mul_succ, Nat.add_comm, pow_add, ← Nat.div_div_eq_div_mul, hdiv]

theorem bitsOfWords_lt (w : Nat) (ws : List Word) : bitsOfWords w ws < 2 ^ (w * ws.length) := by
  induction ws with
  | nil => simp [bitsOfWords]
  | cons v ws ih =>
    have hdigit := digit_lt w v
    calc bitsOfWords w (v :: ws) < 2 ^ w + 2 ^ w * bitsOfWords w ws := Nat.add_lt_add_right hdigit _
      _ = 2 ^ w * (bitsOfWords w ws + 1) := by ring
      _ ≤ 2 ^ w * 2 ^ (w * ws.length) := Nat.mul_le_mul_left _ ih
      _ = 2 ^ (w * (v :: ws).length) := by rw [List.length_cons, Nat.mul_succ, Nat.add_comm, pow_add]

/-- The first words read from the bits of `ws` are those of `ws`. -/
theorem map_wordOfBits_bitsOfWords {w : Nat} (hw : 1 ≤ w) {ws : List Word} (hws : ∀ v ∈ ws, InRange w v)
    {n : Nat} (hn : ws.length ≤ n) :
    ∃ pad, (List.range n).map (wordOfBits w (bitsOfWords w ws)) = ws ++ pad := by
  induction ws generalizing n with
  | nil => exact ⟨_, rfl⟩
  | cons v ws ih =>
    obtain ⟨hv, hws⟩ := List.forall_mem_cons.1 hws
    obtain ⟨m, rfl⟩ : ∃ m, n = m + 1 := Nat.exists_eq_add_one.2 (Nat.zero_lt_of_lt hn)
    obtain ⟨pad, hpad⟩ := ih hws (Nat.le_of_succ_le_succ hn)
    refine ⟨pad, ?_⟩
    rw [List.range_succ_eq_map, List.map_cons, List.map_map, wordOfBits_cons_zero hw hv,
      List.cons_append, ← hpad]
    congr 2
    exact funext (wordOfBits_cons_succ w v ws)

theorem tableWords_bitsOfWords {w : Nat} (hw : 1 ≤ w) {ws : List Word} (hws : ∀ v ∈ ws, InRange w v)
    (hlen : ws.length ≤ longestInstr) :
    ∃ pad, tableWords w (w * ws.length) (bitsOfWords w ws) = ws ++ pad := by
  unfold tableWords
  rw [Nat.mod_eq_of_lt (bitsOfWords_lt w ws)]
  exact map_wordOfBits_bitsOfWords hw hws hlen

theorem length_encode (i : Instr) : (encode i).length = instrLength i := by
  cases i <;> rfl

theorem instrLength_le_longestInstr (i : Instr) : instrLength i ≤ longestInstr := by
  cases i <;> simp [instrLength, instrOpcode, opcodeLength, longestInstr]

theorem encode_eq_cons (i : Instr) : encode i = opcodeValue (instrOpcode i) :: (encode i).tail := by
  cases i <;> rfl

/-- From width 8 on every opcode is a word. -/
theorem opcodeValue_inRange {w : Nat} (hw : 8 ≤ w) (op : Opcode) : InRange w (opcodeValue op) := by
  have hhalf : (2 : Int) ^ 7 ≤ half w := by
    unfold half
    exact_mod_cast Nat.pow_le_pow_right (by decide) (by omega : 7 ≤ w - 1)
  cases op <;> simp only [opcodeValue] <;> constructor <;> omega

theorem operands_inRange {w : Nat} {i : Instr} (h : i.wf w = true) : ∀ v ∈ (encode i).tail, InRange w v := by
  cases i with
  | halt => exact List.forall_mem_nil _
  | _ => simpa [Instr.wf, encode, InRange, and_assoc] using h

theorem encode_inRange {w : Nat} (hw : 8 ≤ w) {i : Instr} (h : i.wf w = true) :
    ∀ v ∈ encode i, InRange w v := by
  rw [encode_eq_cons]
  exact List.forall_mem_cons.2 ⟨opcodeValue_inRange hw _, operands_inRange h⟩

theorem decode_encode_append (i : Instr) (rest : List Word) : decode (encode i ++ rest) = .ok (i, rest) := by
  cases i with
  | add a b dest => exact Laws.RoundTrip.add a b dest rest
  | mul a b dest => exact Laws.RoundTrip.mul a b dest rest
  | inp dest => exact Laws.RoundTrip.inp dest rest
  | out src => exact Laws.RoundTrip.out src rest
  | halt => exact Laws.RoundTrip.halt rest

theorem encoded_bits_decode {w : Nat} (hw : 8 ≤ w) {i : Instr} (h : i.wf w = true) :
    ∃ tail, decode (tableWords w (w * instrLength i) (bitsOfWords w (encode i))) = .ok (i, tail) := by
  have hlen : (encode i).length ≤ longestInstr := (length_encode i).trans_le (instrLength_le_longestInstr i)
  obtain ⟨pad, hpad⟩ := tableWords_bitsOfWords (by omega) (encode_inRange hw h) hlen
  rw [length_encode] at hpad
  exact ⟨pad, by rw [hpad, decode_encode_append]⟩

/-- Settles O5: the words read from the bits begin with the encoder's words, which decode back. -/
theorem encodedBitsDecodeBack : Obligations.EncodedBitsDecodeBack := by
  unfold Obligations.EncodedBitsDecodeBack
  refine ⟨fun w i hw h => encoded_bits_decode hw h, fun i h => ?_⟩
  obtain ⟨tail, htail⟩ := encoded_bits_decode (by decide) h
  show decodedInstr (decode (tableWords 64 _ _)) = some i
  rw [htail]
  rfl

/-- What decodes still decodes with further words after it. -/
theorem decode_append {ws : List Word} {i : Instr} {tail : List Word} (h : decode ws = .ok (i, tail))
    (more : List Word) : decode (ws ++ more) = .ok (i, tail ++ more) := by
  obtain ⟨w0, hop, rfl⟩ := decode_ok h
  have hvalue : decodeOpcode (opcodeValue (instrOpcode i)) = some (instrOpcode i) := by
    cases i <;> rfl
  have hcongr := decode_cons_congr (hop.trans hvalue.symm) (by simp [hvalue]) ((encode i).tail ++ tail ++ more)
  rw [List.cons_append, hcongr, List.append_assoc, ← List.cons_append, ← encode_eq_cons,
    decode_encode_append]

end Sys2Proof

namespace Sys2Proof.Machine

/-- The words placed at IP are the ones that the decoder is given there. -/
theorem drop_ip_placeWords (ws : List Word) (s : State) :
    (placeWords ws s).tape.drop s.ip = ws ++ s.tape.drop (s.ip + ws.length) := by
  have hlen : ((s.tape ++ List.replicate (s.ip - s.n) 0).take s.ip).length = s.ip := by
    rw [List.length_take, List.length_append, List.length_replicate, ← n_eq]
    omega
  unfold placeWords
  rw [List.append_assoc, List.drop_left' hlen]

/-- Settles O51: the placed words begin the tape at IP, and what follows them does not matter. -/
theorem placedTableWordRunsNext : Obligations.PlacedTableWordRunsNext := by
  unfold Obligations.PlacedTableWordRunsNext
  intro s nbits w i hw h
  have hdecode : ∃ tail, decode (tableWords s.cfg.w nbits w) = .ok (i, tail) := by
    rw [hw]
    change decodedInstr (decode (tableWords 64 nbits w)) = some i at h
    cases hd : decode (tableWords 64 nbits w) with
    | error e => rw [hd] at h; cases h
    | ok p => rw [hd] at h; cases h; exact ⟨p.2, rfl⟩
  obtain ⟨tail, htail⟩ := hdecode
  have hplaced := decode_append htail (s.tape.drop (s.ip + (tableWords s.cfg.w nbits w).length))
  rw [← drop_ip_placeWords] at hplaced
  exact step_of_fetch_ok rfl (fetch_of_decode_ok hplaced)

end Sys2Proof.Machine
end

section
/-! The assembler (30_encoding.md R70): without labels a listing is its items' words one after another,
and a label's address is the number of words before it. -/

namespace Sys2Proof.Machine

theorem asmItem_instrItem (labels : List (String × Nat)) (i : Instr) :
    asmItem labels (instrItem i) = some (encode i) := by
  cases i <;> rfl

theorem mapM_asmItem_instrs (labels : List (String × Nat)) (is : List Instr) :
    (is.map instrItem).mapM (asmItem labels) = some (is.map encode) := by
  induction is with
  | nil => rfl
  | cons i is ih => simp [asmItem_instrItem, ih]

theorem asmLabels_instrItem_cons (here : Nat) (i : Instr) (items : List AsmItem) :
    asmLabels here (instrItem i :: items) = asmLabels (here + instrLength i) items := by
  cases i <;> rfl

/-- Instructions define no label and move the address on by their lengths. -/
theorem asmLabels_instrs_append (is : List Instr) (here : Nat) (items : List AsmItem) :
    asmLabels here (is.map instrItem ++ items) = asmLabels (here + (is.map instrLength).sum) items := by
  induction is generalizing here with
  | nil => rfl
  | cons i is ih =>
    rw [List.map_cons, List.cons_append, asmLabels_instrItem_cons, ih, List.map_cons, List.sum_cons,
      Nat.add_assoc]

theorem assemble_instrs (is : List Instr) :
    assemble (is.map instrItem) = some (is.map encode).flatten := by
  unfold assemble
  rw [mapM_asmItem_instrs]
  rfl

theorem assemble_out_label (is : List Instr) (name : String) (v : Word) :
    assemble (.out (.label name) :: (is.map instrItem ++ [.label name, .word v])) =
      some (encode (.out ((2 + (is.map instrLength).sum : Nat) : Int)) ++ (is.map encode).flatten ++ [v]) := by
  have hlabels : asmLabels 0 (.out (.label name) :: (is.map instrItem ++ [.label name, .word v])) =
      [(name, 2 + (is.map instrLength).sum)] :=
    asmLabels_instrs_append is 2 _
  generalize 2 + (is.map instrLength).sum = here at hlabels ⊢
  simp [assemble, hlabels, mapM_asmItem_instrs, asmItem, asmOperand, -List.mapM_map]

/-- Settles O8: the instructions' items are their encodings, and the OUT's label is the address after them. -/
theorem listingsAssembleToEncodings : Obligations.ListingsAssembleToEncodings := by
  unfold Obligations.ListingsAssembleToEncodings
  exact ⟨assemble_instrs, assemble_out_label⟩

end Sys2Proof.Machine
end

section
/-! The fetch's own faults (40_cycle.md R83, R86), and what each instruction does at given operands: one
equation per outcome, and the frame of each instruction. -/

namespace Sys2Proof.Machine

/-- Settles O9: a running step executes what the decode at IP gives. -/
theorem stepRunsTheDecodedInstruction : Obligations.StepRunsTheDecodedInstruction := by
  unfold Obligations.StepRunsTheDecodedInstruction
  intro s i tail hr hd
  exact step_of_fetch_ok hr (fetch_of_decode_ok hd)

theorem step_of_decode_error {s : State} {e : DecodeError} (hr : s.run = .running)
    (hd : decode (s.tape.drop s.ip) = .error e) : step s = .next (takeFault (fetchFault s e) s) :=
  step_of_fetch_error hr (fetch_of_decode_error hd)

/-- Settles O10: no word is left at IP, and the invariant bounds IP by N. -/
theorem ipPastTheTapeFaults : Obligations.IpPastTheTapeFaults := by
  unfold Obligations.IpPastTheTapeFaults
  intro s hn
  refine ⟨fun hr => ?_, fun hs => le_antisymm hs.ipOnTape hn⟩
  have hd : decode (s.tape.drop s.ip) = .error .noOpcode := by
    rw [List.drop_eq_nil_of_le hn]
    rfl
  exact step_of_decode_error hr hd

/-- A valid opcode word with fewer words after it than its instruction has: the first one is missing. -/
theorem decode_missing {w0 : Word} {ws : List Word} {op : Opcode} {k : Fin 4}
    (hop : decodeOpcode w0 = some op) (hk : k.val = ws.length + 1) (hlt : k.val < opcodeLength op) :
    decode (w0 :: ws) = .error (.missing k) := by
  cases hd : decode (w0 :: ws) with
  | ok p =>
    obtain ⟨taken, hws, hlen⟩ := decode_ok_append hd
    cases hop.symm.trans (decode_ok_opcode hd)
    have hlength := congrArg List.length hws
    rw [List.length_append, List.length_cons] at hlength
    omega
  | error e =>
    rcases decode_error hd with ⟨hws, _⟩ | ⟨_, _, hws, hnone, _⟩ | ⟨_, _, _, k', hws, _, rfl, hk', _⟩
    · cases hws
    · cases hws
      cases hnone.symm.trans hop
    · cases hws
      rw [Fin.ext (hk'.trans hk.symm)]

/-- Settles O12: the decode names the first missing word, whose index is N. -/
theorem missingOperandWordFaults : Obligations.MissingOperandWordFaults := by
  unfold Obligations.MissingOperandWordFaults
  intro s w0 op k hr hread hop hk hlt hn
  have hd : decode (s.tape.drop s.ip) = .error (.missing k) := by
    rw [drop_ip_of_read hread]
    refine decode_missing hop ?_ hlt
    rw [List.length_drop, ← n_eq]
    omega
  exact step_of_decode_error hr hd

theorem exec_alu_of_inRange (op : AluOp) {s : State} {a b dest x y : Word} (hw : s.cfg.Ok)
    (ha : s.tape.read a = some x) (hb : s.tape.read b = some y) (hdest : ValidAddress s dest)
    (hfit : InRange s.cfg.w (aluExact op x y)) :
    exec (op.instr a b dest) s = .next (advance 4 (memWrite dest.toNat (aluExact op x y) s)) := by
  rw [(Completes.alu op ha hb hdest (.inr hfit)).exec_eq, wrap_of_inRange hw hfit]

/-- Settles O15: the completion of ADD, whose sum the wrapping leaves as it is. -/
theorem addStoresTheSum : Obligations.AddStoresTheSum := by
  unfold Obligations.AddStoresTheSum
  intro s a b dest x y hw ha hb hdest hfit
  exact exec_alu_of_inRange .add hw ha hb hdest hfit

/-- Settles O16: the completion of MUL, whose product the wrapping leaves as it is. -/
theorem mulStoresTheProduct : Obligations.MulStoresTheProduct := by
  unfold Obligations.MulStoresTheProduct
  intro s a b dest x y hw ha hb hdest hfit
  exact exec_alu_of_inRange .mul hw ha hb hdest hfit

/-- Settles O18: under WRAP the operand checks are the only ones. -/
theorem wrapPolicyStoresTheWrappedResult : Obligations.WrapPolicyStoresTheWrappedResult := by
  unfold Obligations.WrapPolicyStoresTheWrappedResult
  intro s a b dest x y hp ha hb hdest
  exact ⟨(Completes.alu .add ha hb hdest (.inl hp)).exec_eq,
    (Completes.alu .mul ha hb hdest (.inl hp)).exec_eq⟩

/-- Settles O19: the last check is the one on the exact result. -/
theorem faultPolicyRaisesOverflow : Obligations.FaultPolicyRaisesOverflow := by
  unfold Obligations.FaultPolicyRaisesOverflow
  intro s a b dest x y hp ha hb hdest
  exact ⟨fun hfit => (Raises.overflow .add ha hb hdest hp hfit).exec_eq,
    fun hfit => (Raises.overflow .mul ha hb hdest hp hfit).exec_eq⟩

/-- Settles O22: the three address checks in their order. -/
theorem arithmeticAddressFaultsInOrder : Obligations.ArithmeticAddressFaultsInOrder := by
  unfold Obligations.ArithmeticAddressFaultsInOrder
  intro s a b dest i hi
  obtain ⟨op, rfl⟩ := exists_aluInstr hi
  exact ⟨fun ha => (Raises.badA op ha).exec_eq, fun ha hb => (Raises.badB op ha hb).exec_eq,
    fun ha hb hdest => (Raises.badDest op ha hb hdest).exec_eq⟩

/-- Settles O24: the completion of IN. -/
theorem inStoresTheNextInput : Obligations.InStoresTheNextInput := by
  unfold Obligations.InStoresTheNextInput
  intro s dest v hdest hv
  exact (Completes.inp hdest hv).exec_eq

/-- Settles O25: with the address checked, the queue has no value left. -/
theorem inFaultsWhenInputIsExhausted : Obligations.InFaultsWhenInputIsExhausted := by
  unfold Obligations.InFaultsWhenInputIsExhausted
  intro s dest hdest hl
  exact ⟨_, (Raises.exhausted hdest hl.ge).exec_eq, rfl, rfl, rfl, rfl, rfl, rfl⟩

/-- Settles O26: the address check comes before the queue. -/
theorem inWithBadDestinationFaults : Obligations.InWithBadDestinationFaults := by
  unfold Obligations.InWithBadDestinationFaults
  intro s dest hdest
  exact (Raises.inpBadDest hdest).exec_eq

/-- Settles O28: the completion of OUT. -/
theorem outAppendsTheWord : Obligations.OutAppendsTheWord := by
  unfold Obligations.OutAppendsTheWord
  intro s src v hv
  exact (Completes.out hv).exec_eq

/-- Settles O29: the only check of OUT. -/
theorem outWithBadSourceFaults : Obligations.OutWithBadSourceFaults := by
  unfold Obligations.OutWithBadSourceFaults
  intro s src hsrc
  exact (Raises.outBadSrc hsrc).exec_eq

theorem natCast_toNat_of_valid {s : State} {v : Int} (h : ValidAddress s v) : (v.toNat : Int) = v :=
  Int.toNat_of_nonneg h.1

/-- The word written at a valid address is read there (20_memory.md R48). -/
theorem read_write_valid {s : State} {dest : Word} (h : ValidAddress s dest) (v : Word) :
    (s.tape.write dest.toNat v).read dest = some v := by
  have hlt : dest.toNat < s.tape.length := by
    have hdest := h.2
    rw [n_eq] at hdest
    omega
  have hsame := read_write_same hlt v
  rwa [natCast_toNat_of_valid h] at hsame

/-- A write at a valid address leaves every other address as it was (20_memory.md R42). -/
theorem read_write_ne {s : State} {dest : Word} (h : ValidAddress s dest) (v : Word) {a : Int}
    (ha : a ≠ dest) : (s.tape.write dest.toNat v).read a = s.tape.read a :=
  read_write_other s.tape (by rwa [natCast_toNat_of_valid h]) v

theorem arithmetic_frame {op : AluOp} {a b dest : Word} {s t : State}
    (h : exec (op.instr a b dest) s = .next t) :
    t.inCursor = s.inCursor ∧ t.outq = s.outq ∧ (∀ v : Int, v ≠ dest → t.tape.read v = s.tape.read v) ∧
      ((t.run = s.run ∧ t.fault = s.fault ∧ t.ip = s.ip + 4) ∨
        (t.run = .faulted ∧ t.tape = s.tape ∧ t.ip = s.ip)) := by
  rw [exec_aluInstr] at h
  rcases arithmetic_cases op a b dest s with
    ⟨_, _, _, _, hdest, _, e⟩ | ⟨_, _, _, _, e⟩ | ⟨_, _, _, _, _, _, _, e⟩ <;> cases e.symm.trans h
  · exact ⟨rfl, rfl, fun v hv => read_write_ne hdest _ hv, .inl ⟨rfl, rfl, rfl⟩⟩
  · exact ⟨rfl, rfl, fun _ _ => rfl, .inr ⟨rfl, rfl, rfl⟩⟩
  · exact ⟨rfl, rfl, fun _ _ => rfl, .inr ⟨rfl, rfl, rfl⟩⟩

/-- Settles O23: the configuration is kept by every instruction, the rest is the frame of the ALU's. -/
theorem arithmeticFrame : Obligations.ArithmeticFrame := by
  unfold Obligations.ArithmeticFrame
  intro s t a b dest i hi h
  obtain ⟨op, rfl⟩ := exists_aluInstr hi
  obtain ⟨hcfg, hinq, hn⟩ := exec_keeps_fixed h
  obtain ⟨hcursor, houtq, hread, hend⟩ := arithmetic_frame h
  exact ⟨hcfg, hinq, hcursor, houtq, hn, hread, hend⟩

/-- Settles O27: the completion writes at dest alone, and both faults are taken at the state itself. -/
theorem inFrame : Obligations.InFrame := by
  unfold Obligations.InFrame
  intro s t dest h
  obtain ⟨hcfg, hinq, hn⟩ := exec_keeps_fixed h
  rcases execInp_cases dest s with ⟨v, hdest, _, _, e⟩ | ⟨_, e⟩ | ⟨_, _, e⟩ <;> cases e.symm.trans h
  · exact ⟨hcfg, hinq, rfl, hn, fun a ha => read_write_ne hdest v ha, .inl ⟨rfl, rfl, rfl, rfl⟩⟩
  · exact ⟨hcfg, hinq, rfl, hn, fun _ _ => rfl, .inr ⟨rfl, rfl, rfl, rfl⟩⟩
  · exact ⟨hcfg, hinq, rfl, hn, fun _ _ => rfl, .inr ⟨rfl, rfl, rfl, rfl⟩⟩

/-- Settles O30: the completion appends to the outputs, and the fault is taken at the state itself. -/
theorem outFrame : Obligations.OutFrame := by
  unfold Obligations.OutFrame
  intro s t src h
  obtain ⟨hcfg, hinq, hn⟩ := exec_keeps_fixed h
  rcases execOut_cases src s with ⟨v, _, _, e⟩ | ⟨_, e⟩ <;> cases e.symm.trans h
  · have hcount : (advance 2 (outPush v s)).outCursor = s.outCursor + 1 := by simp [outCursor_eq]
    exact ⟨hcfg, hinq, rfl, hn, fun _ => rfl, .inl ⟨rfl, rfl, hcount, rfl⟩⟩
  · exact ⟨hcfg, hinq, rfl, hn, fun _ => rfl, .inr ⟨rfl, rfl, rfl⟩⟩

end Sys2Proof.Machine
end

section
/-! What a step can change: the run state, the fault record, the tape, the cursors and IP. -/

namespace Sys2Proof.Machine

/-- What a fault entry keeps changes only where a fetched instruction completes. -/
theorem completes_of_changed {α : Type} {s t : State} (g : State → α)
    (hg : ∀ f, g (takeFault f s) = g s) (h : step s = .next t) (hne : g t ≠ g s) :
    s.run = .running ∧ ∃ i, fetch s = .ok i ∧ Completes s i t := by
  by_cases hr : s.run = .running
  · rcases running_step_cases hr h with hc | ⟨f, _, rfl⟩
    · exact ⟨hr, hc⟩
    · exact absurd (hg f) hne
  · exact absurd (congrArg g (ended_step_eq hr h)) hne

/-- HALTED is entered exactly where HALT is fetched (43_halt.md R141). -/
theorem step_halted_iff {s t : State} (hr : s.run = .running) (h : step s = .next t) :
    t.run = .halted ↔ fetch s = .ok .halt := by
  constructor
  · intro ht
    obtain ⟨i, hi, hc⟩ := step_completes hr h (by simp [ht])
    rw [hi, (hc.run_halted_iff hr).1 ht]
  · intro hi
    cases ((step_of_fetch_ok hr hi).trans (exec_halt s)).symm.trans h
    rfl

/-- Only a fault entry sets the fault record (43_halt.md R141). -/
theorem step_fault_changed {s t : State} (h : step s = .next t) (hne : t.fault ≠ s.fault) :
    s.run = .running ∧ t.run = .faulted := by
  by_cases hr : s.run = .running
  · rcases running_step_cases hr h with ⟨i, _, hc⟩ | ⟨f, _, rfl⟩
    · exact absurd hc.fault_eq hne
    · exact ⟨hr, rfl⟩
  · exact absurd (congrArg State.fault (ended_step_eq hr h)) hne

/-- Settles O32: an ended engine stays, and a running step completes an instruction or enters a fault. -/
theorem runStateTransitions : Obligations.RunStateTransitions := by
  unfold Obligations.RunStateTransitions
  intro s t h
  have hstay : Ended s → t.run = s.run := fun hend => congrArg State.run (ended_step_eq hend h)
  refine ⟨fun hr => (hstay (by simp [hr])).trans hr, fun hr => (hstay (by simp [hr])).trans hr,
    fun hr => step_halted_iff hr h, fun ht => ?_, step_fault_changed h⟩
  by_contra hend
  exact hend ((hstay hend).symm.trans ht)

/-- Settles O33: the fault is entered at the state the step began with. -/
theorem faultsArePrecise : Obligations.FaultsArePrecise := by
  unfold Obligations.FaultsArePrecise
  intro s t hr h ht
  obtain ⟨f, hf, rfl⟩ := step_faulted hr h ht
  exact ⟨rfl, rfl, rfl, rfl, rfl, rfl, hf.ip_eq⟩

theorem fetchFault_cause_ne_arithOverflow (s : State) (e : DecodeError) :
    (fetchFault s e).cause ≠ .arithOverflow := by
  cases e <;> simp [fetchFault, faultAt]

theorem Raises.policy_of_arithOverflow {s : State} {i : Instr} {f : FaultRecord} (h : Raises s i f)
    (hf : f.cause = .arithOverflow) : s.cfg.policy = .fault := by
  cases h with
  | overflow _ _ _ _ hp _ => exact hp
  | _ => cases hf

/-- Settles O21: only the overflow check raises it, and only under FAULT. -/
theorem wrapPolicyNeverRaisesOverflow : Obligations.WrapPolicyNeverRaisesOverflow := by
  unfold Obligations.WrapPolicyNeverRaisesOverflow
  intro s t hp hr h ht hcause
  obtain ⟨f, hf, rfl⟩ := step_faulted hr h ht
  cases hf with
  | fetch hf =>
    obtain ⟨e, _, rfl⟩ := decode_of_fetch_error hf
    exact fetchFault_cause_ne_arithOverflow s e hcause
  | exec _ hf => cases hp.symm.trans (hf.policy_of_arithOverflow hcause)

theorem aluInstr_eq_add_or_mul (op : AluOp) (a b dest : Word) :
    op.instr a b dest = .add a b dest ∨ op.instr a b dest = .mul a b dest := by
  cases op
  · exact .inl rfl
  · exact .inr rfl

/-- A completion that changes the tape is of ADD, MUL or IN, and writes at its dest. -/
theorem Completes.tape_changed {s t : State} {i : Instr} (h : Completes s i t) (hne : t.tape ≠ s.tape) :
    ∃ dest, ((∃ a b, i = .add a b dest) ∨ (∃ a b, i = .mul a b dest) ∨ i = .inp dest) ∧
      (∀ v : Int, v ≠ dest → t.tape.read v = s.tape.read v) ∧ t.outq = s.outq := by
  cases h with
  | @alu a b dest x y op _ _ hdest _ =>
    refine ⟨dest, ?_, fun v hv => read_write_ne hdest _ hv, rfl⟩
    exact (aluInstr_eq_add_or_mul op a b dest).imp (fun e => ⟨a, b, e⟩) fun e => .inl ⟨a, b, e⟩
  | @inp dest v hdest _ =>
    exact ⟨dest, .inr (.inr rfl), fun a ha => read_write_ne hdest v ha, rfl⟩
  | out _ => exact absurd rfl hne
  | halt => exact absurd rfl hne

/-- A completion that changes the outputs is of OUT, and appends the word at its src. -/
theorem Completes.outq_changed {s t : State} {i : Instr} (h : Completes s i t) (hne : t.outq ≠ s.outq) :
    ∃ src v, i = .out src ∧ s.tape.read src = some v ∧ t.outq = s.outq ++ [v] ∧ t.tape = s.tape := by
  cases h with
  | @out src v hv => exact ⟨src, v, rfl, hv, rfl, rfl⟩
  | _ => exact absurd rfl hne

/-- A completion that moves the input cursor is of IN, and stores the value the cursor stood at. -/
theorem Completes.inCursor_changed {s t : State} {i : Instr} (h : Completes s i t)
    (hne : t.inCursor ≠ s.inCursor) :
    ∃ dest v, i = .inp dest ∧ t.inCursor = s.inCursor + 1 ∧ s.inq[s.inCursor]? = some v ∧
      t.tape.read dest = some v := by
  cases h with
  | @inp dest v hdest hv => exact ⟨dest, v, rfl, rfl, hv, read_write_valid hdest v⟩
  | _ => exact absurd rfl hne

/-- Settles O35: tape and outputs change only in a completion, of the instructions named. -/
theorem tapeChangesOnlyAtTheDestination : Obligations.TapeChangesOnlyAtTheDestination := by
  unfold Obligations.TapeChangesOnlyAtTheDestination
  intro s t h
  constructor
  · intro hne
    obtain ⟨hr, i, hi, hc⟩ := completes_of_changed State.tape (fun _ => rfl) h hne
    obtain ⟨dest, hinstr, hread, houtq⟩ := hc.tape_changed hne
    exact ⟨i, dest, hr, hi, hinstr, hread, houtq⟩
  · intro hne
    obtain ⟨hr, i, hi, hc⟩ := completes_of_changed State.outq (fun _ => rfl) h hne
    obtain ⟨src, v, rfl, hv, houtq, htape⟩ := hc.outq_changed hne
    exact ⟨src, v, hr, hi, hv, houtq, htape⟩

/-- Settles O38: the cursor moves only in a completion of IN, which goes on running. -/
theorem inputIsConsumedOnlyByIn : Obligations.InputIsConsumedOnlyByIn := by
  unfold Obligations.InputIsConsumedOnlyByIn
  intro s t h hne
  obtain ⟨hr, i, hi, hc⟩ := completes_of_changed State.inCursor (fun _ => rfl) h hne
  obtain ⟨dest, v, rfl, hcursor, hv, hread⟩ := hc.inCursor_changed hne
  exact ⟨dest, v, hr, hi, (hc.run_eq (by simp)).trans hr, hcursor, hv, hread⟩

theorem Completes.ip_eq_of_running {s t : State} {i : Instr} (h : Completes s i t)
    (ht : t.run = .running) : t.ip = s.ip + instrLength i := by
  rw [h.ip_eq, if_neg (h.ne_halt_of_running ht)]

/-- A step that goes on running moves IP by the instruction's length, two words or more, on the tape. -/
theorem step_running_ip {s t : State} (hr : s.run = .running) (h : step s = .next t)
    (ht : t.run = .running) :
    ∃ i, fetch s = .ok i ∧ t.ip = s.ip + instrLength i ∧ 2 ≤ instrLength i ∧ t.ip ≤ t.n := by
  obtain ⟨i, hi, hc⟩ := step_completes hr h (by simp [ht])
  exact ⟨i, hi, hc.ip_eq_of_running ht, two_le_instrLength (hc.ne_halt_of_running ht),
    step_keeps_n h ▸ hc.ipOnTape hi⟩

/-- A running step that ends the run leaves IP where it is. -/
theorem step_ended_ip {s t : State} (hr : s.run = .running) (h : step s = .next t) (ht : Ended t) :
    t.ip = s.ip := by
  rcases running_step_cases hr h with ⟨i, _, hc⟩ | ⟨f, _, rfl⟩
  · have hi : i = .halt := by
      by_contra hi
      exact ht ((hc.run_eq hi).trans hr)
    rw [hc.ip_eq, if_pos hi, Nat.add_zero]
  · rfl

/-- Settles O36: IP moves exactly in a step from RUNNING to RUNNING. -/
theorem ipAdvancesByTheLengthOrHolds : Obligations.IpAdvancesByTheLengthOrHolds := by
  unfold Obligations.IpAdvancesByTheLengthOrHolds
  intro s t h
  refine ⟨fun hr ht => step_running_ip hr h ht, fun hend => ?_⟩
  by_cases hr : s.run = .running
  · exact step_ended_ip hr h fun ht => hend ⟨hr, ht⟩
  · rw [ended_step_eq hr h]

end Sys2Proof.Machine
end

section
/-! The control table (40_cycle.md R85): one lemma per column says that a completion does what the row of
its instruction gives there. -/

namespace Sys2Proof.Machine

theorem controlOf_aluInstr (op : AluOp) (a b dest : Word) :
    controlOf (op.instr a b dest) = ⟨true, 4, [1, 2, 3], some 1, some 2, some op, some 3, false, false, false⟩ := by
  cases op <;> rfl

theorem controlOf_operandWords (i : Instr) : (controlOf i).operandWords = (List.range (instrLength i)).drop 1 := by
  cases i <;> rfl

theorem controlOf_ipIncrement (i : Instr) :
    (controlOf i).ipIncrement = if i = .halt then 0 else instrLength i := by
  cases i <;> rfl

theorem controlOf_halt (i : Instr) : (controlOf i).halt = true ↔ i = .halt := by
  cases i <;> simp [controlOf, instrOpcode, controlRow]

theorem dataRead_of_operandWord {s : State} {i : Instr} {k : Nat} {v : Word} (h : operandWord i k = some v) :
    dataRead s i (some k) = s.tape.read v := by
  simp [dataRead, h]

theorem Completes.inputPop {s t : State} {i : Instr} (h : Completes s i t) :
    t.inCursor = s.inCursor + if (controlOf i).inputPop then 1 else 0 := by
  cases h with
  | alu op => rw [controlOf_aluInstr]; rfl
  | _ => rfl

theorem Completes.outq_of_no_outputPush {s t : State} {i : Instr} (h : Completes s i t)
    (hpush : (controlOf i).outputPush = false) : t.outq = s.outq := by
  cases h with
  | out _ => cases hpush
  | _ => rfl

theorem Completes.outq_of_outputPush {s t : State} {i : Instr} (h : Completes s i t)
    (hpush : (controlOf i).outputPush = true) :
    ∃ v, dataRead s i (controlOf i).dataRead1 = some v ∧ t.outq = s.outq ++ [v] := by
  cases h with
  | alu op => rw [controlOf_aluInstr] at hpush; cases hpush
  | @out src v hv => exact ⟨v, (dataRead_of_operandWord rfl).trans hv, rfl⟩
  | _ => cases hpush

theorem Completes.tape_of_no_tapeWrite {s t : State} {i : Instr} (h : Completes s i t)
    (hwrite : (controlOf i).tapeWrite = none) : t.tape = s.tape := by
  cases h with
  | alu op => rw [controlOf_aluInstr] at hwrite; cases hwrite
  | inp => cases hwrite
  | _ => rfl

/-- The dest of the ALU's instructions is the operand word in their row's write slot. -/
theorem aluInstr_writeSlot {op : AluOp} {a b dest : Word} {k : Nat} {v : Word}
    (hwrite : (controlOf (op.instr a b dest)).tapeWrite = some k)
    (hv : operandWord (op.instr a b dest) k = some v) : v = dest := by
  rw [controlOf_aluInstr] at hwrite
  cases hwrite
  exact Option.some.inj (hv.symm.trans (operandWords_aluInstr op a b dest).2.2)

theorem Completes.tape_of_tapeWrite {s t : State} {i : Instr} (h : Completes s i t) {k : Nat} {a : Word}
    (hwrite : (controlOf i).tapeWrite = some k) (ha : operandWord i k = some a) {v : Int} (hv : v ≠ a) :
    t.tape.read v = s.tape.read v := by
  cases h with
  | alu op _ _ hdest _ =>
    cases aluInstr_writeSlot hwrite ha
    exact read_write_ne hdest _ hv
  | inp hdest _ =>
    cases hwrite
    cases ha
    exact read_write_ne hdest _ hv
  | _ => cases hwrite

theorem Completes.tape_of_aluOp {s t : State} {i : Instr} (h : Completes s i t) {op : AluOp} {k : Nat}
    {a : Word} (hop : (controlOf i).aluOp = some op) (hwrite : (controlOf i).tapeWrite = some k)
    (ha : operandWord i k = some a) :
    ∃ x y, dataRead s i (controlOf i).dataRead1 = some x ∧ dataRead s i (controlOf i).dataRead2 = some y ∧
      t.tape.read a = some (Machine.alu s.cfg.w op x y).2 := by
  cases h with
  | @alu u v dest x y op hx hy hdest _ =>
    obtain ⟨hfirst, hsecond, _⟩ := operandWords_aluInstr op u v dest
    rw [aluInstr_writeSlot hwrite ha]
    rw [controlOf_aluInstr] at hop ⊢
    cases hop
    exact ⟨x, y, (dataRead_of_operandWord hfirst).trans hx, (dataRead_of_operandWord hsecond).trans hy,
      read_write_valid hdest _⟩
  | _ => cases hop

theorem Completes.tape_of_inputPop {s t : State} {i : Instr} (h : Completes s i t) {k : Nat} {a : Word}
    (hpop : (controlOf i).inputPop = true) (hwrite : (controlOf i).tapeWrite = some k)
    (ha : operandWord i k = some a) : ∃ v, s.inq[s.inCursor]? = some v ∧ t.tape.read a = some v := by
  cases h with
  | alu op => rw [controlOf_aluInstr] at hpop; cases hpop
  | @inp dest v hdest hv =>
    cases hwrite
    cases ha
    exact ⟨v, hv, read_write_valid hdest v⟩
  | _ => cases hpop

/-- Settles O37: the step is a completion, which follows its row column by column. -/
theorem completedStepsFollowTheControlTable : Obligations.CompletedStepsFollowTheControlTable := by
  unfold Obligations.CompletedStepsFollowTheControlTable
  refine ⟨⟨rfl, rfl, fun op => by cases op <;> rfl, rfl⟩, fun s t i hr hi h ht => ?_⟩
  obtain ⟨j, hj, hc⟩ := step_completes hr h ht
  cases hi.symm.trans hj
  exact ⟨controlOf_operandWords i, controlOf_ipIncrement i ▸ hc.ip_eq, hc.inputPop,
    hc.outq_of_no_outputPush, hc.outq_of_outputPush, hc.tape_of_no_tapeWrite,
    fun _ _ hwrite ha _ hv => hc.tape_of_tapeWrite hwrite ha hv,
    fun _ _ _ hop hwrite ha => hc.tape_of_aluOp hop hwrite ha,
    fun _ _ hpop hwrite ha => hc.tape_of_inputPop hpop hwrite ha,
    (hc.run_halted_iff hr).trans (controlOf_halt i).symm⟩

end Sys2Proof.Machine
end

section
/-! A write is visible to the very next fetch (20_memory.md section 4). -/

namespace Sys2Proof.Machine

theorem exec_alu_running {op : AluOp} {a b dest x y : Word} {s t : State} (ha : s.tape.read a = some x)
    (hb : s.tape.read b = some y) (h : exec (op.instr a b dest) s = .next t) (ht : t.run = .running) :
    t.ip = s.ip + 4 ∧ t.tape.read dest = some (wrap s.cfg.w (aluExact op x y)) := by
  rw [exec_aluInstr] at h
  rcases arithmetic_cases op a b dest s with
    ⟨x', y', ha', hb', hdest, _, e⟩ | ⟨_, _, _, _, e⟩ | ⟨_, _, _, _, _, _, _, e⟩ <;> cases e.symm.trans h
  · cases ha.symm.trans ha'
    cases hb.symm.trans hb'
    exact ⟨rfl, read_write_valid hdest _⟩
  · cases ht
  · cases ht

theorem execInp_running {dest v : Word} {s t : State} (hv : s.inq[s.inCursor]? = some v)
    (h : exec (.inp dest) s = .next t) (ht : t.run = .running) :
    t.ip = s.ip + 2 ∧ t.tape.read dest = some v := by
  rcases execInp_cases dest s with ⟨v', hdest, hv', _, e⟩ | ⟨_, e⟩ | ⟨_, _, e⟩ <;> cases e.symm.trans h
  · cases hv.symm.trans hv'
    exact ⟨rfl, read_write_valid hdest v⟩
  · cases ht
  · cases ht

theorem step_of_invalid {s : State} {w0 : Word} (hr : s.run = .running)
    (hread : s.tape.read (s.ip : Int) = some w0) (hop : decodeOpcode w0 = none) :
    step s = .next (takeFault (faultAt s .decodeFailure 0 w0) s) := by
  have hd : decode (s.tape.drop s.ip) = .error (.invalid w0) := by
    rw [drop_ip_of_read hread]
    exact decode_invalid hop _
  exact step_of_decode_error hr hd

/-- Settles O41: each writer leaves its word at the new IP, where the next step decodes it. -/
theorem writtenOpcodeIsFetchedNext : Obligations.WrittenOpcodeIsFetchedNext := by
  unfold Obligations.WrittenOpcodeIsFetchedNext
  intro s t v _ ht hwriter
  have hread : t.tape.read (t.ip : Int) = some v := by
    rcases hwriter with ⟨a, b, x, y, ha, hb, ⟨h, rfl⟩ | ⟨h, rfl⟩⟩ | ⟨h, hv⟩
    · obtain ⟨hip, hword⟩ := exec_alu_running (op := .add) ha hb h ht
      rwa [hip, Nat.cast_add]
    · obtain ⟨hip, hword⟩ := exec_alu_running (op := .mul) ha hb h ht
      rwa [hip, Nat.cast_add]
    · obtain ⟨hip, hword⟩ := execInp_running hv h ht
      rwa [hip, Nat.cast_add]
  refine ⟨hread, fun hop => ?_, step_of_invalid ht hread⟩
  exact (step_of_fetch_ok ht (fetch_halt_of_read hread hop)).trans (exec_halt t)

end Sys2Proof.Machine
end

section
/-! Runs: the outputs only grow, every run ends within its bound (40_cycle.md section 7), and the end is
one of HALTED and FAULTED and stays. -/

namespace Sys2Proof.Machine

theorem step_outq {s t : State} (h : step s = .next t) : s.outq <+: t.outq := by
  by_cases hne : t.outq = s.outq
  · rw [hne]
  · obtain ⟨_, i, _, hc⟩ := completes_of_changed State.outq (fun _ => rfl) h hne
    obtain ⟨_, v, _, _, houtq, _⟩ := hc.outq_changed hne
    exact ⟨[v], houtq.symm⟩

/-- Settles O39: a step appends to the outputs or keeps them, so every run does. -/
theorem outputIsAppendOnly : Obligations.OutputIsAppendOnly := by
  unfold Obligations.OutputIsAppendOnly
  intro s t k h
  exact runFor_induction (P := fun s t => s.outq <+: t.outq) (fun _ => List.prefix_rfl)
    (fun _ _ _ => List.IsPrefix.trans) (fun _ _ => step_outq) k s t h

theorem runFor_next (k : Nat) (s : State) : ∃ t, runFor k s = .next t := by
  induction k generalizing s with
  | zero => exact ⟨s, runFor_zero s⟩
  | succ k ih =>
    obtain ⟨u, hu⟩ := step_next s
    rw [runFor_succ hu]
    exact ih u

theorem runFor_add {k : Nat} {s t : State} (h : runFor k s = .next t) (m : Nat) :
    runFor (k + m) s = runFor m t := by
  induction k generalizing s with
  | zero =>
    cases h
    rw [Nat.zero_add]
  | succ k ih =>
    obtain ⟨u, hu⟩ := step_next s
    rw [runFor_succ hu] at h
    rw [Nat.succ_add, runFor_succ hu, ih h]

theorem step_running_of_running {s t : State} (h : step s = .next t) (ht : t.run = .running) :
    s.run = .running := by
  by_contra hr
  rw [ended_step_eq hr h] at ht
  exact hr ht

theorem runFor_running_of_running {k : Nat} {s t : State} (h : runFor k s = .next t)
    (ht : t.run = .running) : s.run = .running :=
  runFor_induction (P := fun s t => t.run = .running → s.run = .running) (fun _ => id)
    (fun _ _ _ hst htu hu => hst (htu hu)) (fun _ _ => step_running_of_running) k s t h ht

/-- Every step that goes on running takes two words of the tape, so k of them take 2 * k. -/
theorem two_mul_steps_le {k : Nat} {s t : State} (h : runFor (k + 1) s = .next t)
    (ht : t.run = .running) : s.ip + 2 * (k + 1) ≤ s.n := by
  induction k generalizing s with
  | zero =>
    obtain ⟨u, hu⟩ := step_next s
    cases (runFor_succ hu 0).symm.trans h
    obtain ⟨i, _, hip, hlen, hle⟩ := step_running_ip (step_running_of_running hu ht) hu ht
    have hn := step_keeps_n hu
    omega
  | succ k ih =>
    obtain ⟨u, hu⟩ := step_next s
    have hrest := (runFor_succ hu (k + 1)).symm.trans h
    have hur := runFor_running_of_running hrest ht
    obtain ⟨i, _, hip, hlen, _⟩ := step_running_ip (step_running_of_running hu hur) hu hur
    have hn := step_keeps_n hu
    have hle := ih hrest
    omega

/-- Settles O42: floor(N/2) + 1 running steps would take more words than the tape has. -/
theorem everyRunEnds : Obligations.EveryRunEnds := by
  unfold Obligations.EveryRunEnds
  intro s
  obtain ⟨t, h⟩ := runFor_next (s.n / 2 + 1) s
  refine ⟨t, h, fun ht => ?_⟩
  have hle := two_mul_steps_le h ht
  omega

theorem runFor_of_ended {s : State} (hend : Ended s) (k : Nat) : runFor k s = .next s := by
  obtain ⟨t, h⟩ := runFor_next k s
  rw [h, endedEngineChangesNothing s t k hend h]

/-- Two runs from one state that have both ended have ended in the same state. -/
theorem ended_run_unique {s t u : State} {k m : Nat} (ht : runFor k s = .next t) (hu : runFor m s = .next u)
    (htend : Ended t) (huend : Ended u) : t = u := by
  have htlong : runFor (k + m) s = .next t := (runFor_add ht m).trans (runFor_of_ended htend m)
  have hulong : runFor (m + k) s = .next u := (runFor_add hu k).trans (runFor_of_ended huend k)
  rw [Nat.add_comm] at hulong
  cases htlong.symm.trans hulong
  rfl

theorem not_endsHalted_and_endsFaulted (s : State) : ¬ (EndsHalted s ∧ EndsFaulted s) := by
  rintro ⟨⟨k, t, ht, hhalted⟩, ⟨m, u, hu, hfaulted⟩⟩
  have htu := ended_run_unique ht hu (by simp [Ended, hhalted]) (by simp [Ended, hfaulted])
  rw [htu, hfaulted] at hhalted
  cases hhalted

/-- Settles O43: the bounded run ends in one of the two, and two ends of one run agree. -/
theorem everyRunEndsHaltedOrFaulted : Obligations.EveryRunEndsHaltedOrFaulted := by
  unfold Obligations.EveryRunEndsHaltedOrFaulted
  intro s
  have hexcl := not_endsHalted_and_endsFaulted s
  obtain ⟨t, h, hend⟩ := everyRunEnds s
  cases hrun : t.run with
  | running => exact absurd hrun hend
  | halted =>
    have hhalted : EndsHalted s := ⟨_, t, h, hrun⟩
    exact .inl ⟨hhalted, fun hfaulted => hexcl ⟨hhalted, hfaulted⟩⟩
  | faulted =>
    have hfaulted : EndsFaulted s := ⟨_, t, h, hrun⟩
    exact .inr ⟨hfaulted, fun hhalted => hexcl ⟨hhalted, hfaulted⟩⟩

/-- Settles O54: the read-back is a function of the state, which stays once the run has ended. -/
theorem readBackIsFinal : Obligations.ReadBackIsFinal := by
  unfold Obligations.ReadBackIsFinal
  intro s t k h
  refine ⟨fun hr => if_pos hr, fun hend => ⟨if_neg hend, ?_⟩⟩
  rw [endedEngineChangesNothing s t k hend h]

end Sys2Proof.Machine
end

section
/-! What a step does not depend on: a change of the state that keeps the fetch, every completion and every
raised fault commutes with the step. The policy without overflow, the width of IP and unread input are
such changes. -/

namespace Sys2Proof.Machine

/-- The state under another overflow policy. -/
def State.withPolicy (p : OverflowPolicy) (s : State) : State := { s with cfg := { s.cfg with policy := p } }

/-- The state with another width of the IP register. -/
def State.withIpWidth (k : Nat) (s : State) : State := { s with cfg := { s.cfg with aw := k } }

/-- The state with further values at the end of the input queue. -/
def State.withMoreInput (more : List Word) (s : State) : State := { s with inq := s.inq ++ more }

/-- The commuting square of a step, from those of the completion and of the raised fault. -/
theorem step_commutes {φ : State → State} {s t : State} (hr : s.run = .running)
    (hrun : (φ s).run = s.run) (hfetch : fetch (φ s) = fetch s)
    (htake : ∀ f, φ (takeFault f s) = takeFault f (φ s))
    (hcompletes : ∀ i, fetch s = .ok i → Completes s i t → Completes (φ s) i (φ t))
    (hraises : ∀ i f, fetch s = .ok i → t = takeFault f s → Raises s i f → Raises (φ s) i f)
    (h : step s = .next t) : step (φ s) = .next (φ t) := by
  have hr' : (φ s).run = .running := hrun.trans hr
  rcases running_step_cases hr h with ⟨i, hi, hc⟩ | ⟨f, hf, ht⟩
  · rw [step_of_fetch_ok hr' (hfetch.trans hi), (hcompletes i hi hc).exec_eq]
  · have hf' : StepRaises (φ s) f := by
      cases hf with
      | fetch he => exact .fetch (hfetch.trans he)
      | exec hi hf => exact .exec (hfetch.trans hi) (hraises _ f hi ht hf)
    rw [hf'.step_eq hr', ht, htake]

theorem step_commutes_of_ended {φ : State → State} {s t : State} (hend : Ended s)
    (hrun : (φ s).run = s.run) (h : step s = .next t) : step (φ s) = .next (φ t) := by
  rw [ended_step_eq hend h]
  exact step_of_ended (by rwa [Ended, hrun])

/-- A raised fault reads the tape, IP, the cursor and W, ARITH_OVERFLOW also the policy, and
INPUT_EXHAUSTED also the length of the queue. -/
theorem Raises.congr {s s' : State} {i : Instr} {f : FaultRecord} (h : Raises s i f)
    (htape : s'.tape = s.tape) (hip : s'.ip = s.ip) (hcursor : s'.inCursor = s.inCursor)
    (hw : s'.cfg.w = s.cfg.w) (hpolicy : f.cause = .arithOverflow → s'.cfg.policy = s.cfg.policy)
    (hl : f.cause = .inputExhausted → s'.l = s.l) : Raises s' i f := by
  have hfault : faultAt s = faultAt s' := by
    funext cause slot v
    rw [faultAt, faultAt, hip]
  have hvalid : ∀ v, ValidAddress s v ↔ ValidAddress s' v := fun v => by
    rw [ValidAddress, ValidAddress, n_eq, n_eq, htape]
  cases h with
  | badA op ha => exact hfault ▸ .badA op (mt (hvalid _).2 ha)
  | badB op ha hb => exact hfault ▸ .badB op ((hvalid _).1 ha) (mt (hvalid _).2 hb)
  | badDest op ha hb hdest =>
    exact hfault ▸ .badDest op ((hvalid _).1 ha) ((hvalid _).1 hb) (mt (hvalid _).2 hdest)
  | overflow op ha hb hdest hp hfit =>
    rw [hfault, ← hw]
    rw [← htape] at ha hb
    exact .overflow op ha hb ((hvalid _).1 hdest) ((hpolicy rfl).trans hp) (by rwa [hw])
  | inpBadDest hdest => exact hfault ▸ .inpBadDest (mt (hvalid _).2 hdest)
  | exhausted hdest hle =>
    rw [hfault, ← hcursor]
    exact .exhausted ((hvalid _).1 hdest) (by rwa [hl rfl, hcursor])
  | outBadSrc hsrc => exact hfault ▸ .outBadSrc (mt (hvalid _).2 hsrc)

theorem overflowsAt_of_not_inRange {s : State} {op : AluOp} {a b dest x y : Word}
    (ha : s.tape.read a = some x) (hb : s.tape.read b = some y)
    (hfit : ¬ InRange s.cfg.w (aluExact op x y)) : OverflowsAt s (op.instr a b dest) := by
  cases op <;> exact ⟨x, y, ha, hb, hfit⟩

theorem Raises.overflowsAt {s : State} {i : Instr} {f : FaultRecord} (h : Raises s i f)
    (hf : f.cause = .arithOverflow) : OverflowsAt s i := by
  cases h with
  | overflow op ha hb _ _ hfit => exact overflowsAt_of_not_inRange ha hb hfit
  | _ => cases hf

theorem Completes.withPolicy {s t : State} {i : Instr} (h : Completes s i t) (hno : ¬ OverflowsAt s i)
    (p : OverflowPolicy) : Completes (s.withPolicy p) i (t.withPolicy p) := by
  cases h with
  | @alu _ _ _ x y op ha hb hdest _ =>
    have hfit : InRange s.cfg.w (aluExact op x y) := by
      by_contra hfit
      exact hno (overflowsAt_of_not_inRange ha hb hfit)
    exact .alu (s := s.withPolicy p) op ha hb hdest (.inr hfit)
  | inp hdest hv => exact .inp (s := s.withPolicy p) hdest hv
  | out hv => exact .out (s := s.withPolicy p) hv
  | halt => exact .halt (s := s.withPolicy p)

/-- Settles O20: without overflow no check and no effect reads the policy. -/
theorem policiesAgreeWithoutOverflow : Obligations.PoliciesAgreeWithoutOverflow := by
  unfold Obligations.PoliciesAgreeWithoutOverflow
  intro s t p hno h
  by_cases hr : s.run = .running
  · exact step_commutes (φ := State.withPolicy p) hr rfl rfl (fun _ => rfl)
      (fun i hi hc => hc.withPolicy (hno i hi) p)
      (fun i _ hi _ hf => hf.congr (s' := s.withPolicy p) rfl rfl rfl rfl
        (fun hcause => absurd (hf.overflowsAt hcause) (hno i hi)) (fun _ => rfl)) h
  · exact step_commutes_of_ended (φ := State.withPolicy p) hr rfl h

theorem Completes.withIpWidth {s t : State} {i : Instr} (h : Completes s i t) (k : Nat) :
    Completes (s.withIpWidth k) i (t.withIpWidth k) := by
  cases h with
  | alu op ha hb hdest hfit => exact .alu (s := s.withIpWidth k) op ha hb hdest hfit
  | inp hdest hv => exact .inp (s := s.withIpWidth k) hdest hv
  | out hv => exact .out (s := s.withIpWidth k) hv
  | halt => exact .halt (s := s.withIpWidth k)

/-- Settles O47: no check and no effect reads the width of IP. -/
theorem ipWidthIsNotObservable : Obligations.IpWidthIsNotObservable := by
  unfold Obligations.IpWidthIsNotObservable
  intro s t k h
  by_cases hr : s.run = .running
  · exact step_commutes (φ := State.withIpWidth k) hr rfl rfl (fun _ => rfl)
      (fun _ _ hc => hc.withIpWidth k)
      (fun _ _ _ _ hf => hf.congr (s' := s.withIpWidth k) rfl rfl rfl rfl (fun _ => rfl) (fun _ => rfl)) h
  · exact step_commutes_of_ended (φ := State.withIpWidth k) hr rfl h

theorem Completes.withMoreInput {s t : State} {i : Instr} (h : Completes s i t) (more : List Word) :
    Completes (s.withMoreInput more) i (t.withMoreInput more) := by
  cases h with
  | alu op ha hb hdest hfit => exact .alu (s := s.withMoreInput more) op ha hb hdest hfit
  | @inp dest v hdest hv =>
    have hv' : (s.inq ++ more)[s.inCursor]? = some v := by
      rw [List.getElem?_append_left (List.getElem?_eq_some_iff.1 hv).1, hv]
    exact .inp (s := s.withMoreInput more) hdest hv'
  | out hv => exact .out (s := s.withMoreInput more) hv
  | halt => exact .halt (s := s.withMoreInput more)

/-- Settles O48: the value at the cursor stays where it is, and only exhaustion reads the queue's end. -/
theorem unreadInputDoesNotMatter : Obligations.UnreadInputDoesNotMatter := by
  unfold Obligations.UnreadInputDoesNotMatter
  intro s t more hr h hcause
  refine step_commutes (φ := State.withMoreInput more) hr rfl rfl (fun _ => rfl)
    (fun _ _ hc => hc.withMoreInput more) (fun i f _ ht hf => ?_) h
  rw [ht] at hcause
  exact hf.congr (s' := s.withMoreInput more) rfl rfl rfl rfl (fun _ => rfl)
    fun hexhausted => absurd hexhausted (hcause rfl)

end Sys2Proof.Machine
end

section
/-! The status interface (10_state.md sections 6 to 8): the fields of STATUS, and that the sized registers
hold the values they stand for. -/

namespace Sys2Proof.Machine

theorem faultReadout_of_faulted {s : State} (h : s.run = .faulted) : faultReadout s = s.fault := by
  simp only [faultReadout, h]

theorem faultReadout_of_ne_faulted {s : State} (h : s.run ≠ .faulted) :
    faultReadout s = FaultRecord.zero := by
  unfold faultReadout
  split
  · exact absurd ‹s.run = .faulted› h
  · rfl
  · rfl

theorem statusReg_run (s : State) : (statusReg s).extractLsb' 0 2 = runCode s.run :=
  BitVec.extractLsb'_append_eq_right

theorem statusReg_cause (s : State) : (statusReg s).extractLsb' 2 4 = causeCode (faultReadout s).cause :=
  (BitVec.extractLsb'_append_eq_of_le (le_refl 2)).trans BitVec.extractLsb'_append_eq_right

theorem statusReg_slot (s : State) :
    (statusReg s).extractLsb' 6 2 = BitVec.ofNat 2 (faultReadout s).slot.val :=
  (BitVec.extractLsb'_append_eq_of_le (by decide : 2 ≤ 6)).trans BitVec.extractLsb'_append_eq_left

/-- Two bits hold every slot. -/
theorem toNat_ofNat_slot (slot : Fin 4) : (BitVec.ofNat 2 slot.val).toNat = slot.val :=
  (BitVec.toNat_ofNat _ _).trans (Nat.mod_eq_of_lt slot.isLt)

/-- Settles O52: the three fields of STATUS, and the record that reads 0 outside FAULTED. -/
theorem statusWordLayout : Obligations.StatusWordLayout := by
  unfold Obligations.StatusWordLayout
  intro s
  simp only [statusReg_run, statusReg_cause, statusReg_slot]
  refine ⟨fun hr => by rw [hr]; rfl, fun hr => by rw [hr]; rfl, fun hr => ?_, fun hr => ?_⟩
  · rw [faultReadout_of_faulted hr, hr]
    exact ⟨rfl, fun hc => by rw [hc]; rfl, fun hc => by rw [hc]; rfl, fun hc => by rw [hc]; rfl,
      fun hc => by rw [hc]; rfl, fun hc => by rw [hc]; rfl, fun hc => by rw [hc]; rfl,
      fun hc => by rw [hc]; rfl, toNat_ofNat_slot _, rfl⟩
  · simp only [faultIpReg, faultValueReg, faultReadout_of_ne_faulted hr]
    exact ⟨rfl, rfl, rfl, rfl, by simp [FaultRecord.zero]⟩

/-- Settles O49: every field by evaluation, STATUS included. -/
theorem resetLeavesTheInitialState : Obligations.ResetLeavesTheInitialState := by
  unfold Obligations.ResetLeavesTheInitialState
  exact ⟨rfl, rfl, rfl, rfl, rfl, rfl, rfl, rfl, rfl⟩

/-- AW bits hold every index up to N (00_scope.md R6). -/
theorem lt_two_pow_aw {s : State} (hs : Inv s) {k : Nat} (hk : k ≤ s.n) : k < 2 ^ s.cfg.aw := by
  have hfits := hs.tapeFits
  have hpos := Nat.two_pow_pos s.cfg.aw
  omega

theorem toNat_ofNat_aw {s : State} (hs : Inv s) {k : Nat} (hk : k ≤ s.n) :
    (BitVec.ofNat s.cfg.aw k).toNat = k :=
  (BitVec.toNat_ofNat _ _).trans (Nat.mod_eq_of_lt (lt_two_pow_aw hs hk))

/-- The signed causes report a word, the others a number up to N (60_exceptions.md R150). -/
theorem FaultRecordLegal.value_range {s : State} (hs : Inv s) (h : FaultRecordLegal s) :
    (causeSigned s.fault.cause = true ∧ InRange s.cfg.w s.fault.value) ∨
    (causeSigned s.fault.cause = false ∧ ∃ k : Nat, k ≤ s.n ∧ s.fault.value = (k : Int)) := by
  obtain ⟨_, h⟩ := h
  cases hc : s.fault.cause <;> simp only [hc] at h
  case decodeFailure =>
    obtain ⟨_, hread, _⟩ := h
    exact .inl ⟨rfl, inRange_of_read hs.tapeWords hread⟩
  case oobIp =>
    obtain ⟨_, hvalue, _⟩ := h
    exact .inr ⟨rfl, s.ip, hs.ipOnTape, hvalue⟩
  case oobFetch =>
    obtain ⟨_, hvalue, hn⟩ := h
    exact .inr ⟨rfl, _, hn.le, hvalue⟩
  case oobAddress =>
    obtain ⟨_, _, hread⟩ := h
    exact .inl ⟨rfl, inRange_of_read hs.tapeWords hread⟩
  case inputExhausted =>
    obtain ⟨_, hvalue, _⟩ := h
    have hio := hs.ioBound
    have hip := hs.ipOnTape
    exact .inr ⟨rfl, s.inCursor, by omega, hvalue⟩
  case arithOverflow =>
    obtain ⟨_, _, hresult⟩ := h
    exact .inl ⟨rfl, hresult.inRange hs.configOk⟩

theorem faultReadout_value_range {s : State} (hs : Inv s) :
    (causeSigned (faultReadout s).cause = true ∧ InRange s.cfg.w (faultReadout s).value) ∨
    (causeSigned (faultReadout s).cause = false ∧
      ∃ k : Nat, k ≤ s.n ∧ (faultReadout s).value = (k : Int)) := by
  by_cases hr : s.run = .faulted
  · rw [faultReadout_of_faulted hr]
    exact ((faultOk_iff_legal hr).1 hs.faultOk).value_range hs
  · rw [faultReadout_of_ne_faulted hr]
    exact .inr ⟨rfl, 0, Nat.zero_le _, rfl⟩

theorem faultReadout_ip_le {s : State} (hs : Inv s) : (faultReadout s).ip ≤ s.n := by
  by_cases hr : s.run = .faulted
  · rw [faultReadout_of_faulted hr, ((faultOk_iff_legal hr).1 hs.faultOk).1]
    exact hs.ipOnTape
  · rw [faultReadout_of_ne_faulted hr]
    exact Nat.zero_le _

/-- A register of W bits or more holds a W-bit word. -/
theorem toInt_ofInt_of_inRange {w m : Nat} (hw : 1 ≤ w) (hm : w ≤ m) {v : Int} (hv : InRange w v) :
    (BitVec.ofInt m v).toInt = v := by
  have hhalf : half w ≤ 2 ^ (m - 1) := by
    unfold half
    exact_mod_cast Nat.pow_le_pow_right (by decide) (by omega : w - 1 ≤ m - 1)
  obtain ⟨hlow, hhigh⟩ := hv
  exact BitVec.toInt_ofInt_eq_self (by omega) (by omega) (by omega)

/-- A register of AW bits or more holds a number up to N. -/
theorem toNat_ofInt_natCast {m k : Nat} (hk : k < 2 ^ m) : (BitVec.ofInt m (k : Int)).toNat = k := by
  rw [BitVec.ofInt_natCast, BitVec.toNat_ofNat, Nat.mod_eq_of_lt hk]

theorem faultValueRead_eq {s : State} (hs : Inv s) : faultValueRead s = (faultReadout s).value := by
  unfold faultValueRead faultValueReg
  rcases faultReadout_value_range hs with ⟨hsigned, hrange⟩ | ⟨hunsigned, k, hk, hvalue⟩
  · rw [if_pos hsigned, toInt_ofInt_of_inRange hs.configOk (le_max_left _ _) hrange]
  · have hlt : k < 2 ^ max s.cfg.w s.cfg.aw :=
      (lt_two_pow_aw hs hk).trans_le (Nat.pow_le_pow_right (by decide) (le_max_right _ _))
    rw [if_neg (by simp [hunsigned]), hvalue, toNat_ofInt_natCast hlt]

/-- Settles O53: IP and the record's IP are at most N, and the value is in the range of its cause. -/
theorem statusRegistersLoseNothing : Obligations.StatusRegistersLoseNothing := by
  unfold Obligations.StatusRegistersLoseNothing
  intro s hs
  exact ⟨toNat_ofNat_aw hs hs.ipOnTape, toNat_ofNat_aw hs (faultReadout_ip_le hs), faultValueRead_eq hs⟩

end Sys2Proof.Machine
end
